-- ==== Sys2Proof/Word.lean ====
section
/-! DEFINITION. The word types of the CHIP-8 core: every quantity is an unsigned bit vector (spec/00_scope.md R13). -/

namespace Sys2Proof

/-- A byte: a register `V[i]`, a timer or one byte of main memory (10_state.md R20, 20_memory.md R50). -/
abbrev Byte := BitVec 8

/-- Sixteen bits: an opcode, PC, I or a stack entry (10_state.md R22, R23, R30). -/
abbrev Word := BitVec 16

/-- A register-index field X or Y, or the count field N (30_encoding.md R81). -/
abbrev Nibble := BitVec 4

/-- The twelve-bit address field NNN (30_encoding.md R81). -/
abbrev Addr12 := BitVec 12

end Sys2Proof
end

