-- ==== Sys2Proof/Config.lean ====
section
/-! DEFINITION. The implementation parameters of spec/00_scope.md R6 and the one value the spec leaves open. -/

namespace Sys2Proof

/-- `MEM_SIZE`: bytes of main memory (00_scope.md R6). -/
abbrev Config.memSize : Nat := 4096

/-- `PROG_ORIGIN`: reset value of PC, default load origin, target of the fetch guard (00_scope.md R6). -/
abbrev Config.progOrigin : Nat := 512

/-- `STACK_DEPTH`: entries of the call stack (00_scope.md R6, 90_conflicts.md C11). -/
abbrev Config.stackDepth : Nat := 16

/-- `FONT_STRIDE`: the multiplier of FX29 (00_scope.md R6). -/
abbrev Config.fontStride : Nat := 5

/-- `NKEYS`: keys of the input vector (00_scope.md R6). -/
abbrev Config.numKeys : Nat := 16

/-- `FB_W` and `FB_H`: columns and rows of the framebuffer (00_scope.md R6). -/
abbrev Config.fbWidth : Nat := 64
@[inherit_doc Config.fbWidth] abbrev Config.fbHeight : Nat := 32

/-- `RNG`, OPEN (00_scope.md R6, 10_state.md R37, 92_eei_decisions.md D12): the byte that draw number `drawn`
(0 for the first since Reset) gives for the generator seeded with `seed`. "The sequence of bytes is a function of the
seed and of how many CXNN instructions have executed since `Reset`, and of nothing else." It has no body, so nothing
can be proved of its value. DESIGN CHOICE, safe: assumption log 2. -/
opaque Config.randomByte (seed drawn : Nat) : Byte

end Sys2Proof
end

