-- ==== Sys2Proof/Syntax.lean ====
section
/-! DEFINITION. The instruction set: one constructor per row of spec/opcode_table.json (30_encoding.md R85), the
default row NOP included. Every field of the opcode is kept, also where the instruction does not use it, so that an
instruction determines its word. -/

namespace Sys2Proof

/-- The instructions, named after the mnemonics of 30_encoding.md R85; the fields are those of R81. -/
inductive Instr where
  /-- 00E0 `CLS` -/
  | cls
  /-- 00EE `RET` -/
  | ret
  /-- 1NNN `JP NNN` -/
  | jp (nnn : Addr12)
  /-- 2NNN `CALL NNN` -/
  | call (nnn : Addr12)
  /-- 3XNN `SE Vx, NN` -/
  | seImm (x : Nibble) (nn : Byte)
  /-- 4XNN `SNE Vx, NN` -/
  | sneImm (x : Nibble) (nn : Byte)
  /-- 5XY0 `SE Vx, Vy` -/
  | seReg (x y : Nibble)
  /-- 6XNN `LD Vx, NN` -/
  | ldImm (x : Nibble) (nn : Byte)
  /-- 7XNN `ADD Vx, NN` -/
  | addImm (x : Nibble) (nn : Byte)
  /-- 8XY0 `LD Vx, Vy` -/
  | ldReg (x y : Nibble)
  /-- 8XY1 `OR Vx, Vy` -/
  | orReg (x y : Nibble)
  /-- 8XY2 `AND Vx, Vy` -/
  | andReg (x y : Nibble)
  /-- 8XY3 `XOR Vx, Vy` -/
  | xorReg (x y : Nibble)
  /-- 8XY4 `ADD Vx, Vy` -/
  | addReg (x y : Nibble)
  /-- 8XY5 `SUB Vx, Vy` -/
  | subReg (x y : Nibble)
  /-- 8XY6 `SHR Vx`; Y is decoded and not used -/
  | shr (x y : Nibble)
  /-- 8XY7 `SUBN Vx, Vy` -/
  | subnReg (x y : Nibble)
  /-- 8XYE `SHL Vx`; Y is decoded and not used -/
  | shl (x y : Nibble)
  /-- 9XY0 `SNE Vx, Vy` -/
  | sneReg (x y : Nibble)
  /-- ANNN `LD I, NNN` -/
  | ldI (nnn : Addr12)
  /-- BNNN `JP V0, NNN` -/
  | jpV0 (nnn : Addr12)
  /-- CXNN `RND Vx, NN` -/
  | rnd (x : Nibble) (nn : Byte)
  /-- DXYN `DRW Vx, Vy, N` -/
  | drw (x y n : Nibble)
  /-- EX9E `SKP Vx` -/
  | skp (x : Nibble)
  /-- EXA1 `SKNP Vx` -/
  | sknp (x : Nibble)
  /-- FX15 `LD DT, Vx` -/
  | ldDT (x : Nibble)
  /-- FX1E `ADD I, Vx` -/
  | addI (x : Nibble)
  /-- FX29 `LD F, Vx` -/
  | ldF (x : Nibble)
  /-- FX33 `LD B, Vx` -/
  | ldB (x : Nibble)
  /-- FX55 `LD [I], Vx` -/
  | stRegs (x : Nibble)
  /-- FX65 `LD Vx, [I]` -/
  | ldRegs (x : Nibble)
  /-- `NOP`: an opcode that matches no other row, kept whole -/
  | nop (w : Word)
  deriving DecidableEq, Repr

/-- The number of the rule that gives the instruction its meaning, the last column of 30_encoding.md R85: it names
the row of the opcode map. -/
def Instr.rule : Instr → Nat
  | .cls => 150
  | .ret => 100
  | .jp _ => 101
  | .call _ => 102
  | .seImm _ _ => 110
  | .sneImm _ _ => 111
  | .seReg _ _ => 112
  | .ldImm _ _ => 120
  | .addImm _ _ => 121
  | .ldReg _ _ => 122
  | .orReg _ _ => 123
  | .andReg _ _ => 124
  | .xorReg _ _ => 125
  | .addReg _ _ => 126
  | .subReg _ _ => 127
  | .shr _ _ => 128
  | .subnReg _ _ => 129
  | .shl _ _ => 130
  | .sneReg _ _ => 113
  | .ldI _ => 140
  | .jpV0 _ => 103
  | .rnd _ _ => 131
  | .drw _ _ _ => 151
  | .skp _ => 160
  | .sknp _ => 161
  | .ldDT _ => 162
  | .addI _ => 141
  | .ldF _ => 142
  | .ldB _ => 143
  | .stRegs _ => 144
  | .ldRegs _ => 145
  | .nop _ => 104

end Sys2Proof
end

