-- ==== Sys2Proof/WellFormed.lean ====
section
/-! DEFINITION. When an instruction is one the hardware has. The field types allow every field value the encoding
admits (30_encoding.md R83: no restriction on X, Y, N, NN, NNN), so the one check is that the word of a `nop` is an
unrecognized opcode (30_encoding.md R87). -/

namespace Sys2Proof

/-- The unrecognized space, as the table of 30_encoding.md R87 lists it: group by group, on the bits 15:12 of the
opcode, the sub-opcode N (bits 3:0) or NN (bits 7:0). -/
def unrecognized (w : Word) : Bool :=
  let n := w.extractLsb' 0 4
  let nn := w.extractLsb' 0 8
  match w.extractLsb' 12 4 with
  | 0x0#4 => w != 0x00E0#16 && w != 0x00EE#16
  | 0x5#4 => n != 0x0#4
  | 0x8#4 => [0x8#4, 0x9#4, 0xA#4, 0xB#4, 0xC#4, 0xD#4, 0xF#4].contains n
  | 0x9#4 => n != 0x0#4
  | 0xE#4 => nn != 0x9E#8 && nn != 0xA1#8
  | 0xF#4 => !([0x15#8, 0x1E#8, 0x29#8, 0x33#8, 0x55#8, 0x65#8].contains nn)
  | _ => false

/-- An instruction is well-formed when it is not a `nop` over an opcode that some other row matches. -/
def Instr.wellFormed : Instr → Bool
  | .nop w => unrecognized w
  | .cls | .ret | .jp _ | .call _ | .seImm _ _ | .sneImm _ _ | .seReg _ _ | .ldImm _ _ | .addImm _ _ | .ldReg _ _
  | .orReg _ _ | .andReg _ _ | .xorReg _ _ | .addReg _ _ | .subReg _ _ | .shr _ _ | .subnReg _ _ | .shl _ _
  | .sneReg _ _ | .ldI _ | .jpV0 _ | .rnd _ _ | .drw _ _ _ | .skp _ | .sknp _ | .ldDT _ | .addI _ | .ldF _
  | .ldB _ | .stRegs _ | .ldRegs _ => true

end Sys2Proof
end

