-- ==== Sys2Proof/Decode.lean ====
section
/-! DEFINITION. The instruction decoder: fields (30_encoding.md R81), opcode dispatch (R84), the opcode map as a table
(R85), the bytes of an instruction (20_memory.md R52) and the encoder. -/

namespace Sys2Proof

/-! ## Fields -/

/-- `G`, the group: opcode[15:12] (30_encoding.md R81). -/
def fieldG (w : Word) : Nibble := w.extractLsb' 12 4
/-- `X`: opcode[11:8] (30_encoding.md R81). -/
def fieldX (w : Word) : Nibble := w.extractLsb' 8 4
/-- `Y`: opcode[7:4] (30_encoding.md R81). -/
def fieldY (w : Word) : Nibble := w.extractLsb' 4 4
/-- `N`: opcode[3:0] (30_encoding.md R81). -/
def fieldN (w : Word) : Nibble := w.extractLsb' 0 4
/-- `NN`: opcode[7:0] (30_encoding.md R81). -/
def fieldNN (w : Word) : Byte := w.extractLsb' 0 8
/-- `NNN`: opcode[11:0] (30_encoding.md R81). -/
def fieldNNN (w : Word) : Addr12 := w.extractLsb' 0 12

/-! ## Dispatch -/

/-- Group 0: the whole opcode is matched (30_encoding.md R84, R86). -/
def decode0 (w : Word) : Instr :=
  if w = 0x00E0#16 then .cls else if w = 0x00EE#16 then .ret else .nop w

/-- Group 8: sub-dispatch on N (30_encoding.md R84). -/
def decode8 (w : Word) : Instr :=
  match fieldN w with
  | 0x0#4 => .ldReg (fieldX w) (fieldY w)
  | 0x1#4 => .orReg (fieldX w) (fieldY w)
  | 0x2#4 => .andReg (fieldX w) (fieldY w)
  | 0x3#4 => .xorReg (fieldX w) (fieldY w)
  | 0x4#4 => .addReg (fieldX w) (fieldY w)
  | 0x5#4 => .subReg (fieldX w) (fieldY w)
  | 0x6#4 => .shr (fieldX w) (fieldY w)
  | 0x7#4 => .subnReg (fieldX w) (fieldY w)
  | 0xE#4 => .shl (fieldX w) (fieldY w)
  | _ => .nop w

/-- Group E: sub-dispatch on NN (30_encoding.md R84). -/
def decodeE (w : Word) : Instr :=
  match fieldNN w with
  | 0x9E#8 => .skp (fieldX w)
  | 0xA1#8 => .sknp (fieldX w)
  | _ => .nop w

/-- Group F: sub-dispatch on NN (30_encoding.md R84). -/
def decodeF (w : Word) : Instr :=
  match fieldNN w with
  | 0x15#8 => .ldDT (fieldX w)
  | 0x1E#8 => .addI (fieldX w)
  | 0x29#8 => .ldF (fieldX w)
  | 0x33#8 => .ldB (fieldX w)
  | 0x55#8 => .stRegs (fieldX w)
  | 0x65#8 => .ldRegs (fieldX w)
  | _ => .nop w

/-- The opcode dispatch multiplexer (30_encoding.md R84): total on all 65536 opcodes, since an opcode that matches no
row is the no-operation and no opcode traps (R87). -/
def decode (w : Word) : Instr :=
  match fieldG w with
  | 0x0#4 => decode0 w
  | 0x1#4 => .jp (fieldNNN w)
  | 0x2#4 => .call (fieldNNN w)
  | 0x3#4 => .seImm (fieldX w) (fieldNN w)
  | 0x4#4 => .sneImm (fieldX w) (fieldNN w)
  | 0x5#4 => if fieldN w = 0x0#4 then .seReg (fieldX w) (fieldY w) else .nop w
  | 0x6#4 => .ldImm (fieldX w) (fieldNN w)
  | 0x7#4 => .addImm (fieldX w) (fieldNN w)
  | 0x8#4 => decode8 w
  | 0x9#4 => if fieldN w = 0x0#4 then .sneReg (fieldX w) (fieldY w) else .nop w
  | 0xA#4 => .ldI (fieldNNN w)
  | 0xB#4 => .jpV0 (fieldNNN w)
  | 0xC#4 => .rnd (fieldX w) (fieldNN w)
  | 0xD#4 => .drw (fieldX w) (fieldY w) (fieldN w)
  | 0xE#4 => decodeE w
  | _ => decodeF w

/-! ## The bytes of an instruction -/

/-- Why a byte sequence holds no instruction: 30_encoding.md R80 gives every instruction exactly two bytes, and R87
leaves no word undefined, so the one reason is a sequence that ends too early. -/
inductive DecodeError where
  /-- Fewer than two bytes are left. Raised by `decodeBytes` alone; the machine's fetch always reads two bytes
  (20_memory.md R52), so no step meets it. Safe. -/
  | tooShort (length : Nat)
  deriving DecidableEq, Repr

/-- The opcode assembled from two consecutive bytes, most significant byte first (20_memory.md R52). -/
def assemble (high low : Byte) : Word := high ++ low

/-- The two bytes of a word as they lie in memory, lowest address first (20_memory.md R52). -/
def wordBytes (w : Word) : List Byte := [w.extractLsb' 8 8, w.extractLsb' 0 8]

/-- Decodes the instruction at the head of a byte sequence and gives the rest: total on any bytes. -/
def decodeBytes : List Byte → Except DecodeError (Instr × List Byte)
  | high :: low :: rest => .ok (decode (assemble high low), rest)
  | short => .error (.tooShort short.length)

/-- The instruction the decoder reads from a word whose bits the opcode table numbers: the table gives every row the
sixteen bits of its one word. Bits above `nbits` are zero. -/
def decodeTableWord (nbits w : Nat) : Option Instr :=
  match decodeBytes (wordBytes (BitVec.ofNat 16 (w % 2 ^ nbits))) with
  | .ok (i, _) => some i
  | .error _ => none

/-! ## Encoder -/

/-- Format A: group and address (30_encoding.md R82). -/
def encodeA (g : Nibble) (nnn : Addr12) : Word := g ++ nnn
/-- Formats XI and XF: group, register and the low byte, an immediate or a sub-opcode (30_encoding.md R82). -/
def encodeXI (g x : Nibble) (nn : Byte) : Word := g ++ x ++ nn
/-- Formats XY and XYN: group, two registers and the low nibble, a sub-opcode or a count (30_encoding.md R82). -/
def encodeXY (g x y n : Nibble) : Word := g ++ x ++ y ++ n

/-- The word of a well-formed instruction, from the patterns of 30_encoding.md R85. -/
def encode : Instr → Word
  | .cls => 0x00E0#16
  | .ret => 0x00EE#16
  | .jp nnn => encodeA 0x1#4 nnn
  | .call nnn => encodeA 0x2#4 nnn
  | .seImm x nn => encodeXI 0x3#4 x nn
  | .sneImm x nn => encodeXI 0x4#4 x nn
  | .seReg x y => encodeXY 0x5#4 x y 0x0#4
  | .ldImm x nn => encodeXI 0x6#4 x nn
  | .addImm x nn => encodeXI 0x7#4 x nn
  | .ldReg x y => encodeXY 0x8#4 x y 0x0#4
  | .orReg x y => encodeXY 0x8#4 x y 0x1#4
  | .andReg x y => encodeXY 0x8#4 x y 0x2#4
  | .xorReg x y => encodeXY 0x8#4 x y 0x3#4
  | .addReg x y => encodeXY 0x8#4 x y 0x4#4
  | .subReg x y => encodeXY 0x8#4 x y 0x5#4
  | .shr x y => encodeXY 0x8#4 x y 0x6#4
  | .subnReg x y => encodeXY 0x8#4 x y 0x7#4
  | .shl x y => encodeXY 0x8#4 x y 0xE#4
  | .sneReg x y => encodeXY 0x9#4 x y 0x0#4
  | .ldI nnn => encodeA 0xA#4 nnn
  | .jpV0 nnn => encodeA 0xB#4 nnn
  | .rnd x nn => encodeXI 0xC#4 x nn
  | .drw x y n => encodeXY 0xD#4 x y n
  | .skp x => encodeXI 0xE#4 x 0x9E#8
  | .sknp x => encodeXI 0xE#4 x 0xA1#8
  | .ldDT x => encodeXI 0xF#4 x 0x15#8
  | .addI x => encodeXI 0xF#4 x 0x1E#8
  | .ldF x => encodeXI 0xF#4 x 0x29#8
  | .ldB x => encodeXI 0xF#4 x 0x33#8
  | .stRegs x => encodeXI 0xF#4 x 0x55#8
  | .ldRegs x => encodeXI 0xF#4 x 0x65#8
  | .nop w => w

/-! ## The opcode map -/

/-- One row of the opcode map (30_encoding.md R85): an opcode `w` selects it when `w & mask == match`. -/
structure OpcodeRow where
  matchBits : Word
  mask : Word
  rule : Nat
  deriving DecidableEq, Repr

/-- Whether an opcode selects a row (30_encoding.md R85). -/
def OpcodeRow.selects (r : OpcodeRow) (w : Word) : Bool := w &&& r.mask == r.matchBits

/-- The 31 rows of 30_encoding.md R85, in its order; the default row is selected when none of these is. -/
def opcodeMap : List OpcodeRow :=
  [⟨0x00E0#16, 0xFFFF#16, 150⟩, ⟨0x00EE#16, 0xFFFF#16, 100⟩, ⟨0x1000#16, 0xF000#16, 101⟩, ⟨0x2000#16, 0xF000#16, 102⟩,
   ⟨0x3000#16, 0xF000#16, 110⟩, ⟨0x4000#16, 0xF000#16, 111⟩, ⟨0x5000#16, 0xF00F#16, 112⟩, ⟨0x6000#16, 0xF000#16, 120⟩] ++
  [⟨0x7000#16, 0xF000#16, 121⟩, ⟨0x8000#16, 0xF00F#16, 122⟩, ⟨0x8001#16, 0xF00F#16, 123⟩, ⟨0x8002#16, 0xF00F#16, 124⟩,
   ⟨0x8003#16, 0xF00F#16, 125⟩, ⟨0x8004#16, 0xF00F#16, 126⟩, ⟨0x8005#16, 0xF00F#16, 127⟩, ⟨0x8006#16, 0xF00F#16, 128⟩] ++
  [⟨0x8007#16, 0xF00F#16, 129⟩, ⟨0x800E#16, 0xF00F#16, 130⟩, ⟨0x9000#16, 0xF00F#16, 113⟩, ⟨0xA000#16, 0xF000#16, 140⟩,
   ⟨0xB000#16, 0xF000#16, 103⟩, ⟨0xC000#16, 0xF000#16, 131⟩, ⟨0xD000#16, 0xF000#16, 151⟩, ⟨0xE09E#16, 0xF0FF#16, 160⟩] ++
  [⟨0xE0A1#16, 0xF0FF#16, 161⟩, ⟨0xF015#16, 0xF0FF#16, 162⟩, ⟨0xF01E#16, 0xF0FF#16, 141⟩, ⟨0xF029#16, 0xF0FF#16, 142⟩,
   ⟨0xF033#16, 0xF0FF#16, 143⟩, ⟨0xF055#16, 0xF0FF#16, 144⟩, ⟨0xF065#16, 0xF0FF#16, 145⟩]

/-- The rule of the first of the rows that an opcode selects, or the no-operation R104 where it selects none. -/
def ruleOfRows : List OpcodeRow → Word → Nat
  | [], _ => 104
  | r :: rows, w => if r.selects w then r.rule else ruleOfRows rows w

/-- The rule an opcode selects from the opcode map (30_encoding.md R84, R85). -/
def selectedRule (w : Word) : Nat := ruleOfRows opcodeMap w

end Sys2Proof
end

