-- ==== Sys2Proof/Machine/State.lean ====
section
/-! DEFINITION. The state of the CHIP-8 core as plain data (spec/10_state.md), the reasons a step can stop, and the
state after reset. -/

namespace Sys2Proof.Machine

/-- Main memory: (address, byte) pairs, addresses strictly rising, no entry equal to what an unlisted address reads as
(20_memory.md R50). `Memory.wf` in Machine/Ops.lean states the form. -/
abbrev Memory := List Host.Cell

/-- The framebuffer: 32 rows from the top, 64 columns from the left, `true` = on (10_state.md R33). -/
abbrev FrameBuffer := Vector (Vector Bool 64) 32

/-- The four error kinds (60_exceptions.md R170). The first three are raised by a step and latched in `FAULT`; the
fourth is raised by `Load` alone, reported to its caller and never latched (R176). -/
inductive FaultKind where
  | stackUnderflow
  | stackOverflow
  | outOfBoundsMemoryAccess
  | programTooLarge
  deriving DecidableEq, Repr

/-- What `FAULT` holds of a fault: kind, address the instruction was fetched from, its opcode, and the further
information of 60_exceptions.md R170 (10_state.md R34, 60_exceptions.md R174). -/
structure FaultRecord where
  kind : FaultKind
  addr : Word
  opcode : Word
  info : Nat
  deriving DecidableEq, Repr

/-- `RNGSTATE` (10_state.md R37): the seed the host gave and how many bytes were drawn since Reset, which is all the
byte sequence depends on. DESIGN CHOICE, safe: assumption log 2. -/
structure RngState where
  seed : Nat
  drawn : Nat
  deriving DecidableEq, Repr

/-- The whole state of the core (10_state.md R38, R39, 20_memory.md R51), and the key-state vector of the coming step. -/
structure State where
  /-- `V[0]`..`V[15]`; `VF` is `V[15]` (10_state.md R20, R26). -/
  v : Vector Byte 16
  /-- `I`, the index register (10_state.md R22). -/
  i : Word
  /-- `PC`, the program counter (10_state.md R23). -/
  pc : Word
  /-- `DT`, the delay timer (10_state.md R28). -/
  dt : Byte
  /-- `ST`, the sound timer (10_state.md R29). -/
  st : Byte
  /-- `SP`, the number of stack entries in use, 0..16 (10_state.md R30). -/
  sp : Fin 17
  /-- `STACK[0]`..`STACK[15]`, oldest first (10_state.md R30). -/
  stack : Vector Word 16
  /-- Main memory (20_memory.md R50). -/
  mem : Memory
  /-- The framebuffer (10_state.md R33). -/
  fb : FrameBuffer
  /-- `FAULT`, the fault latch (10_state.md R34). -/
  fault : Option FaultRecord
  /-- `RNGSTATE`, the hidden generator state (10_state.md R37). -/
  rng : RngState
  /-- The model's own field: the `keys` argument of the coming `Step(keys)`, bit k = 1 when key k is down
  (10_state.md R36, 60_exceptions.md R186). DESIGN CHOICE, unsafe: assumption log 1. -/
  keys : BitVec 16
  deriving DecidableEq, Repr

/-- Reasons for the machine to stop without a next state. There is none: every fault the spec describes is taken, a
next state with `FAULT` latched (60_exceptions.md R174), and a step of a halted core is a next state too (R175).
Raised by nobody. Safe: assumption log 4. -/
inductive Fault where
  deriving DecidableEq, Repr

/-- Reasons to refuse an instruction. -/
inductive Refusal where
  /-- The instruction has no meaning in the model: raised by `exec`'s arm for it, and by no arm now. Safe. -/
  | notModelled (mnemonic : String)
  deriving DecidableEq, Repr

/-- What an instruction answers. -/
abbrev Result := Host.Outcome State Fault Refusal

/-- The state after `Reset(seed)` (10_state.md R39, 70_reset_and_hazards.md R200). The spec leaves the stack entries
unspecified and unreadable there: zero is a DESIGN CHOICE (assumption log 3). `keys` is the host's: assumption log 1. -/
def State.resetWith (seed : Nat) : State where
  v := Vector.replicate 16 0
  i := 0
  pc := 512
  dt := 0
  st := 0
  sp := 0
  stack := Vector.replicate 16 0
  mem := []
  fb := Vector.replicate 32 (Vector.replicate 64 false)
  fault := none
  rng := { seed := seed, drawn := 0 }
  keys := 0

/-- The machine right after reset. The host gives `Reset` a seed: zero here is a DESIGN CHOICE (assumption log 2) that
no statement can rest on, since `Config.randomByte` has no body. -/
def State.reset : State := State.resetWith 0

end Sys2Proof.Machine
end

