-- ==== Sys2Proof/Machine/Ops.lean ====
section
/-! DEFINITION. The named operations over memory, registers, stack, framebuffer, generator and program counter; taking
a fault; and the parts of the instruction cycle around an instruction's own effect (spec/10_state.md R40). -/

namespace Sys2Proof.Machine

/-! ## Main memory -/

/-- What an address that is not listed reads as: memory is zero after Reset, every byte (10_state.md R39). -/
def Memory.unlisted : Byte := 0

/-- The byte at an address (00_scope.md R15, `MEM[a]`). -/
def Memory.read : Memory → Nat → Byte
  | [], _ => Memory.unlisted
  | (b, v) :: rest, a => if b = a then v else Memory.read rest a

/-- Writes one byte, keeping the canonical form (00_scope.md R15, `MEM[a] <- v`). Its callers check the address
against the memory size first (20_memory.md R58, 70_reset_and_hazards.md R203). -/
def Memory.write : Memory → Nat → Byte → Memory
  | [], a, v => if v = Memory.unlisted then [] else [(a, v)]
  | (b, w) :: rest, a, v =>
    if a < b then (if v = Memory.unlisted then (b, w) :: rest else (a, v) :: (b, w) :: rest)
    else if a = b then (if v = Memory.unlisted then rest else (a, v) :: rest)
    else (b, w) :: Memory.write rest a v

/-- Writes the `n` bytes `f 0`, ..., `f (n - 1)` at ascending addresses from `base` (20_memory.md R55). -/
def Memory.storeBytes (m : Memory) (base : Nat) (f : Nat → Byte) : Nat → Memory
  | 0 => m
  | n + 1 => (Memory.storeBytes m base f n).write (base + n) (f n)

/-- The canonical form: addresses strictly rising, none outside memory, no entry that reads as an unlisted address. -/
abbrev Memory.wf (m : Memory) : Prop :=
  m.Pairwise (fun c d => c.1 < d.1) ∧ ∀ c ∈ m, c.1 < Config.memSize ∧ c.2 ≠ Memory.unlisted

/-! ## Registers -/

/-- The register index of VF (10_state.md R26). -/
abbrev regVF : Nibble := 0xF#4

/-- `V[x]` (10_state.md R20): no register is hardwired. -/
def State.getV (s : State) (x : Nibble) : Byte := s.v[x.toNat]

/-- `V[x] <- b` (10_state.md R20). -/
def State.setV (s : State) (x : Nibble) (b : Byte) : State := { s with v := s.v.set x.toNat b x.isLt }

/-- `I <- w` (10_state.md R22). -/
def State.setI (s : State) (w : Word) : State := { s with i := w }

/-- `DT <- b` (10_state.md R28). -/
def State.setDT (s : State) (b : Byte) : State := { s with dt := b }

/-- Loads `V[k]` from `base + k` for the `n` registers from `V[0]` (43_index_memory.md R145). -/
def State.loadRegs (s : State) (base : Nat) : Nat → State
  | 0 => s
  | n + 1 => (State.loadRegs s base n).setV (BitVec.ofNat 4 n) (s.mem.read (base + n))

/-- Stores the bytes `f 0`, ..., `f (n - 1)` from `base` (20_memory.md R55). -/
def State.storeBytes (s : State) (base : Nat) (f : Nat → Byte) (n : Nat) : State :=
  { s with mem := s.mem.storeBytes base f n }

/-! ## Program counter -/

/-- `PC <- t`, unreduced (40_flow.md R105, 10_state.md R25). -/
def State.jump (s : State) (t : Word) : State := { s with pc := t }

/-- `advance`: `PC <- PC + 2` (00_scope.md R16). -/
def State.advance (s : State) : State := s.jump (s.pc + 2)

/-- `skip` when the condition holds, `PC <- PC + 4`, else `advance` (00_scope.md R16, 41_skip.md R114). -/
def State.skipIf (s : State) (c : Bool) : State := if c then s.jump (s.pc + 4) else s.advance

/-! ## Call stack -/

/-- `Push(v)`: nothing when 16 entries are in use (10_state.md R31). -/
def State.push (s : State) (v : Word) : Option State :=
  if h : s.sp.val < 16 then
    some { s with stack := s.stack.set s.sp.val v h, sp := ⟨s.sp.val + 1, by omega⟩ }
  else none

/-- `Pop()`: the newest entry and the state without it, nothing when the stack is empty; the storage keeps its bits
(10_state.md R32). -/
def State.pop (s : State) : Option (Word × State) :=
  if h : s.sp.val = 0 then none
  else
    have := s.sp.isLt
    some (s.stack[s.sp.val - 1], { s with sp := ⟨s.sp.val - 1, by omega⟩ })

/-! ## Framebuffer -/

/-- `FB[r][c]` (10_state.md R33). -/
def FrameBuffer.pixel (fb : FrameBuffer) (r : Fin 32) (c : Fin 64) : Bool := fb[r.val][c.val]

/-- `FB[r][c] <- 1` (44_display.md R151: a pixel is set, never toggled and never cleared). -/
def FrameBuffer.turnOn (fb : FrameBuffer) (r : Fin 32) (c : Fin 64) : FrameBuffer :=
  fb.set r.val (fb[r.val].set c.val true)

/-- All pixels off (44_display.md R150). -/
def FrameBuffer.off : FrameBuffer := Vector.replicate 32 (Vector.replicate 64 false)

/-- `FB[r][c]` of a state. -/
def State.pixel (s : State) (r : Fin 32) (c : Fin 64) : Bool := s.fb.pixel r c

/-- Replaces the framebuffer. -/
def State.setFB (s : State) (fb : FrameBuffer) : State := { s with fb := fb }

/-! ## Random generator -/

/-- The byte the next `RandomByte()` returns, a free value (10_state.md R37). -/
def State.nextRandom (s : State) : Byte := Config.randomByte s.rng.seed s.rng.drawn

/-- The generator after one draw (10_state.md R37). -/
def State.drawRandom (s : State) : State := { s with rng := { s.rng with drawn := s.rng.drawn + 1 } }

/-! ## Taking a fault

`raise` is the one way an instruction takes a fault: "abandons the instruction with no write made and latches the fault"
(00_scope.md R15, 60_exceptions.md R174). There is no return from it: the hardware has no trap return (R179), a halted
core stays halted (R175), and `Reset` is the only way out. -/

/-- Latches a fault of the instruction `i`, executed at the address in PC, and writes nothing else. -/
def State.raise (s : State) (kind : FaultKind) (i : Instr) (info : Nat) : State :=
  { s with fault := some { kind := kind, addr := s.pc, opcode := encode i, info := info } }

/-- Whether the core is halted (60_exceptions.md R175). -/
def State.halted (s : State) : Bool := s.fault.isSome

/-! ## Around the instruction (10_state.md R40) -/

/-- The fetch guard: the address an instruction is fetched from when PC holds `pc` (20_memory.md R53). -/
def fetchAddr (pc : Word) : Word := if 4095 ≤ pc.toNat then BitVec.ofNat 16 Config.progOrigin else pc

/-- `Fetch16(a)`: two bytes, most significant first (20_memory.md R52). -/
def Memory.fetch16 (m : Memory) (a : Nat) : Word := assemble (m.read a) (m.read (a + 1))

/-- The opcode the coming step fetches (10_state.md R40 steps 1 and 2). -/
def State.opcode (s : State) : Word := s.mem.fetch16 (fetchAddr s.pc).toNat

/-- The instruction the coming step executes (10_state.md R40 steps 1 to 4). -/
def State.fetchInstr (s : State) : Instr := decode s.opcode

/-- The state the instruction executes in: "PC is taken to be a for the rest of the step" (10_state.md R40 step 3). -/
def State.atFetch (s : State) : State := s.jump (fetchAddr s.pc)

/-- The state after the step, from the state before it and the one the instruction left: where the instruction took a
fault, "every other piece of state, PC included, keeps the value it had before step 1" (10_state.md R40 step 6). -/
def State.settle (before after : State) : State :=
  if after.halted then { before with fault := after.fault } else after

/-- Stores a word where the coming step fetches, and lifts a latched fault, which would keep the step from fetching. -/
def State.placeWord (s : State) (w : Word) : State :=
  let a := (fetchAddr s.pc).toNat
  { s with mem := s.mem.storeBytes a (fun k => (wordBytes w).getD k 0) 2, fault := none }

end Sys2Proof.Machine
end

