-- ==== Sys2Proof/Machine/Operands.lean ====
section
/-! DEFINITION. The operand forms: zero-extended immediates, the data accesses through I with their bounds check, the
key number, the decimal digits and the sprite's bits. -/

namespace Sys2Proof.Machine

/-- An address operand NNN, zero-extended to the 16 bits of PC or I (30_encoding.md R83). -/
def addrOperand (nnn : Addr12) : Word := nnn.setWidth 16

/-- A byte zero-extended to 16 bits (30_encoding.md R83, 00_scope.md R13). -/
def extend (b : Byte) : Word := b.setWidth 16

/-- How many registers FX55 and FX65 move: X + 1, from the field X (43_index_memory.md R144, R145;
`REGCOPY_COUNT`, 92_eei_decisions.md D7). -/
def regCopyCount (x : Nibble) : Nat := x.toNat + 1

/-- How many data bytes an instruction accesses, at I, I + 1, ... (20_memory.md R57, R66). -/
def dataBytes : Instr → Nat
  | .drw _ _ n => n.toNat
  | .ldB _ => 3
  | .stRegs x => regCopyCount x
  | .ldRegs x => regCopyCount x
  | .cls | .ret | .jp _ | .call _ | .seImm _ _ | .sneImm _ _ | .seReg _ _ | .ldImm _ _ | .addImm _ _ | .ldReg _ _
  | .orReg _ _ | .andReg _ _ | .xorReg _ _ | .addReg _ _ | .subReg _ _ | .shr _ _ | .subnReg _ _ | .shl _ _
  | .sneReg _ _ | .ldI _ | .jpV0 _ | .rnd _ _ | .skp _ | .sknp _ | .ldDT _ | .addI _ | .ldF _ | .nop _ => 0

/-- The effective address `I + k`, an unbounded integer: it is not truncated (20_memory.md R58, 43_index_memory.md
R146). -/
def State.dataAddr (s : State) (k : Nat) : Nat := s.i.toNat + k

/-- Whether some of the `n` data bytes at I lies beyond memory: `I + kmax >= 4096`; never where no byte is accessed
(20_memory.md R58). -/
def State.outOfBounds (s : State) (n : Nat) : Bool := 1 ≤ n && Config.memSize ≤ s.dataAddr (n - 1)

/-- The lowest offending address, `max(I, 4096)` (20_memory.md R58). -/
def State.firstOutOfBounds (s : State) : Nat := max s.i.toNat Config.memSize

/-- Runs the body of an instruction that accesses memory through I, after the check of all its bytes: out of bounds it
takes `OutOfBoundsMemoryAccess` and makes none of its accesses and none of its writes (20_memory.md R58,
60_exceptions.md R173). -/
def withData (i : Instr) (body : State → State) (s : State) : Result :=
  if s.outOfBounds (dataBytes i) then .next (s.raise .outOfBoundsMemoryAccess i s.firstOutOfBounds)
  else .next (body s)

/-- `KeyDown(k)`: bit k of the step's key vector for k in 0..15, false for a larger number (60_exceptions.md R186). -/
def State.keyDown (s : State) (k : Byte) : Bool := k.toNat < Config.numKeys && s.keys.getLsbD k.toNat

/-- The decimal digits of a byte: hundreds, tens, ones (43_index_memory.md R143). -/
def decimalDigit (v : Byte) : Nat → Byte
  | 0 => BitVec.ofNat 8 (v.toNat / 100)
  | 1 => BitVec.ofNat 8 (v.toNat / 10 % 10)
  | _ => BitVec.ofNat 8 (v.toNat % 10)

/-- What the drawing loop carries: the framebuffer and `hit` (44_display.md R151). -/
structure Canvas where
  fb : FrameBuffer
  hit : Bool
  deriving DecidableEq, Repr

/-- One bit of a sprite row: bit `7 - j` of the byte, at column `(x0 + j) mod 64` and row `(y0 + i) mod 32`; a 1 bit
sets the pixel and flags a collision where it was on (44_display.md R151). -/
def drawBit (x0 y0 b : Byte) (i j : Nat) (cv : Canvas) : Canvas :=
  if b.getLsbD (7 - j) then
    let c := Fin.ofNat 64 (x0.toNat + j)
    let r := Fin.ofNat 32 (y0.toNat + i)
    { fb := cv.fb.turnOn r c, hit := cv.hit || cv.fb.pixel r c }
  else cv

/-- The first `n` bits of a sprite row, leftmost first (44_display.md R151, the loop over j). -/
def drawBits (x0 y0 b : Byte) (i : Nat) : Nat → Canvas → Canvas
  | 0, cv => cv
  | n + 1, cv => drawBit x0 y0 b i n (drawBits x0 y0 b i n cv)

/-- The first `n` rows of a sprite, top first; `row i` is the byte of row i (44_display.md R151, the loop over i). -/
def drawRows (x0 y0 : Byte) (row : Nat → Byte) : Nat → Canvas → Canvas
  | 0, cv => cv
  | n + 1, cv => drawBits x0 y0 (row n) n 8 (drawRows x0 y0 row n cv)

end Sys2Proof.Machine
end

