-- ==== Sys2Proof/Machine/Flags.lean ====
section
/-! DEFINITION. The flag VF: the value each flag-writing instruction computes and the order of the two writes
(spec/10_state.md R27, R42). -/

namespace Sys2Proof.Machine

/-- A flag as VF holds it, 0 or 1 (10_state.md R26). -/
def flagByte (c : Bool) : Byte := if c then 1 else 0

/-- 8XY4: the carry out of the 8-bit add (10_state.md R27). -/
def carryFlag (a b : Byte) : Byte := flagByte (255 < a.toNat + b.toNat)

/-- 8XY5 and 8XY7: 1 when the minuend is strictly greater, so equal operands give 0 (10_state.md R27). -/
def greaterFlag (minuend subtrahend : Byte) : Byte := flagByte (subtrahend.toNat < minuend.toNat)

/-- 8XY6: the bit shifted out at the right (10_state.md R27). -/
def lowBitFlag (a : Byte) : Byte := a &&& 1

/-- 8XYE: the bit shifted out at the left (10_state.md R27). -/
def highBitFlag (a : Byte) : Byte := flagByte (a &&& 0x80 != 0)

/-- The flag write to VF first, the result write to `V[x]` second: with x = 15 the result remains (10_state.md R42). -/
def State.setFlagThenV (s : State) (x : Nibble) (flag result : Byte) : State := (s.setV regVF flag).setV x result

end Sys2Proof.Machine
end

