-- ==== Sys2Proof/Machine/Alu.lean ====
section
/-! DEFINITION. Load, add, logic, subtract, shift and random (spec/42_alu.md). Results wrap modulo 256 (R132), and all
operands are those at the start of the instruction (10_state.md R41). -/

namespace Sys2Proof.Machine

/-- `LD Vx, NN` (42_alu.md R120). -/
def execLdImm (x : Nibble) (nn : Byte) (s : State) : Result := .next (s.setV x nn).advance

/-- `ADD Vx, NN` (42_alu.md R121): VF is not written. -/
def execAddImm (x : Nibble) (nn : Byte) (s : State) : Result := .next (s.setV x (s.getV x + nn)).advance

/-- `LD Vx, Vy` (42_alu.md R122). -/
def execLdReg (x y : Nibble) (s : State) : Result := .next (s.setV x (s.getV y)).advance

/-- `OR Vx, Vy` (42_alu.md R123). -/
def execOrReg (x y : Nibble) (s : State) : Result := .next (s.setV x (s.getV x ||| s.getV y)).advance

/-- `AND Vx, Vy` (42_alu.md R124). -/
def execAndReg (x y : Nibble) (s : State) : Result := .next (s.setV x (s.getV x &&& s.getV y)).advance

/-- `XOR Vx, Vy` (42_alu.md R125). -/
def execXorReg (x y : Nibble) (s : State) : Result := .next (s.setV x (s.getV x ^^^ s.getV y)).advance

/-- `ADD Vx, Vy` (42_alu.md R126): VF <- carry, then the sum. -/
def execAddReg (x y : Nibble) (s : State) : Result :=
  let a := s.getV x
  let b := s.getV y
  .next (s.setFlagThenV x (carryFlag a b) (a + b)).advance

/-- `SUB Vx, Vy` (42_alu.md R127): VF <- `V[X] > V[Y]`, then the difference. -/
def execSubReg (x y : Nibble) (s : State) : Result :=
  let a := s.getV x
  let b := s.getV y
  .next (s.setFlagThenV x (greaterFlag a b) (a - b)).advance

/-- `SHR Vx` (42_alu.md R128): VF <- bit 0, then the shifted value; `V[Y]` is not read. -/
def execShr (x _y : Nibble) (s : State) : Result :=
  let a := s.getV x
  .next (s.setFlagThenV x (lowBitFlag a) (a >>> 1)).advance

/-- `SUBN Vx, Vy` (42_alu.md R129): VF <- `V[Y] > V[X]`, then `V[Y] - V[X]`. -/
def execSubnReg (x y : Nibble) (s : State) : Result :=
  let a := s.getV x
  let b := s.getV y
  .next (s.setFlagThenV x (greaterFlag b a) (b - a)).advance

/-- `SHL Vx` (42_alu.md R130): VF <- bit 7, then the shifted value; `V[Y]` is not read. -/
def execShl (x _y : Nibble) (s : State) : Result :=
  let a := s.getV x
  .next (s.setFlagThenV x (highBitFlag a) (a <<< 1)).advance

/-- `RND Vx, NN` (42_alu.md R131): one draw, masked. -/
def execRnd (x : Nibble) (nn : Byte) (s : State) : Result := .next (s.drawRandom.setV x (s.nextRandom &&& nn)).advance

end Sys2Proof.Machine
end

