-- ==== Sys2Proof/Machine/Display.lean ====
section
/-! DEFINITION. The display instructions (spec/44_display.md). -/

namespace Sys2Proof.Machine

/-- `CLS` (44_display.md R150). -/
def execCls (s : State) : Result := .next (s.setFB FrameBuffer.off).advance

/-- `DRW Vx, Vy, N` (44_display.md R151): the coordinates are read first, all N bytes are checked before any pixel is
written, and VF is always written. -/
def execDrw (x y n : Nibble) (s : State) : Result :=
  withData (.drw x y n)
    (fun s =>
      let cv := drawRows (s.getV x) (s.getV y) (fun i => s.mem.read (s.dataAddr i)) n.toNat ⟨s.fb, false⟩
      ((s.setFB cv.fb).setV regVF (flagByte cv.hit)).advance) s

end Sys2Proof.Machine
end

