-- ==== Sys2Proof/Machine/Flow.lean ====
section
/-! DEFINITION. Control transfer and the no-operation (spec/40_flow.md). -/

namespace Sys2Proof.Machine

/-- `RET` (40_flow.md R100): `t <- Pop(); PC <- t`, `StackUnderflow` on an empty stack (60_exceptions.md R171). -/
def execRet (s : State) : Result :=
  match s.pop with
  | none => .next (s.raise .stackUnderflow .ret 0)
  | some (t, s') => .next (s'.jump t)

/-- `JP NNN` (40_flow.md R101): `PC <- NNN`. -/
def execJp (nnn : Addr12) (s : State) : Result := .next (s.jump (addrOperand nnn))

/-- `CALL NNN` (40_flow.md R102): `Push(PC + 2); PC <- NNN`, `StackOverflow` when 16 entries are in use
(60_exceptions.md R172). -/
def execCall (nnn : Addr12) (s : State) : Result :=
  match s.push (s.pc + 2) with
  | none => .next (s.raise .stackOverflow (.call nnn) s.sp.val)
  | some s' => .next (s'.jump (addrOperand nnn))

/-- `JP V0, NNN` (40_flow.md R103): `PC <- NNN + V[0]`, the full sum. -/
def execJpV0 (nnn : Addr12) (s : State) : Result := .next (s.jump (addrOperand nnn + extend (s.getV 0)))

/-- `NOP`, every unrecognized opcode (40_flow.md R104): `PC <- PC + 2`. -/
def execNop (_w : Word) (s : State) : Result := .next s.advance

end Sys2Proof.Machine
end

