-- ==== Sys2Proof/Machine/IndexMemory.lean ====
section
/-! DEFINITION. The index register and the loads and stores through it (spec/43_index_memory.md). No access changes I
(R146). -/

namespace Sys2Proof.Machine

/-- `LD I, NNN` (43_index_memory.md R140). -/
def execLdI (nnn : Addr12) (s : State) : Result := .next (s.setI (addrOperand nnn)).advance

/-- `ADD I, Vx` (43_index_memory.md R141): modulo 65536, no flag. -/
def execAddI (x : Nibble) (s : State) : Result := .next (s.setI (s.i + extend (s.getV x))).advance

/-- `LD F, Vx` (43_index_memory.md R142): the whole byte times 5. -/
def execLdF (x : Nibble) (s : State) : Result :=
  .next (s.setI (BitVec.ofNat 16 ((s.getV x).toNat * Config.fontStride))).advance

/-- `LD B, Vx` (43_index_memory.md R143). -/
def execLdB (x : Nibble) (s : State) : Result :=
  withData (.ldB x) (fun s => (s.storeBytes (s.dataAddr 0) (decimalDigit (s.getV x)) 3).advance) s

/-- `LD [I], Vx` (43_index_memory.md R144). -/
def execStRegs (x : Nibble) (s : State) : Result :=
  withData (.stRegs x)
    (fun s => (s.storeBytes (s.dataAddr 0) (fun k => s.getV (BitVec.ofNat 4 k)) (regCopyCount x)).advance) s

/-- `LD Vx, [I]` (43_index_memory.md R145). -/
def execLdRegs (x : Nibble) (s : State) : Result :=
  withData (.ldRegs x) (fun s => (s.loadRegs (s.dataAddr 0) (regCopyCount x)).advance) s

end Sys2Proof.Machine
end

