-- ==== Sys2Proof/Machine/Keypad.lean ====
section
/-! DEFINITION. The keypad skips and the delay-timer load (spec/45_keypad_timer.md). -/

namespace Sys2Proof.Machine

/-- `SKP Vx` (45_keypad_timer.md R160). -/
def execSkp (x : Nibble) (s : State) : Result := .next (s.skipIf (s.keyDown (s.getV x)))

/-- `SKNP Vx` (45_keypad_timer.md R161). -/
def execSknp (x : Nibble) (s : State) : Result := .next (s.skipIf (!s.keyDown (s.getV x)))

/-- `LD DT, Vx` (45_keypad_timer.md R162). -/
def execLdDT (x : Nibble) (s : State) : Result := .next (s.setDT (s.getV x)).advance

end Sys2Proof.Machine
end

