-- ==== Sys2Proof/Machine/Step.lean ====
section
/-! DEFINITION. One step of the core, `Step(keys)` with the keys of the state (spec/10_state.md R40), and the placing
of an instruction where the next step fetches. -/

namespace Sys2Proof.Machine

/-- The instruction cycle (10_state.md R40): a halted core changes nothing (step 0); else the instruction at the
guarded PC is fetched, decoded and executed (steps 1 to 5), and a fault leaves all but the latch as it was before the
step (step 6). The `StepResult` is read off the state after: `State.stepResult`. -/
def step (s : State) : Host.Outcome State Fault Refusal :=
  if s.halted then .next s
  else
    match exec s.fetchInstr s.atFetch with
    | .next t => .next (s.settle t)
    | .fault r => .fault r
    | .refused r => .refused r

/-- `StepResult` (00_scope.md R11, 10_state.md R40). -/
inductive StepResult where
  /-- `Continue` -/
  | goOn
  /-- `Stop(fault)` -/
  | stop (fault : FaultRecord)
  deriving DecidableEq, Repr

/-- What the step that led to this state returns: `Stop(FAULT)` exactly when the latch is set (10_state.md R40). -/
def State.stepResult (s : State) : StepResult :=
  match s.fault with
  | none => .goOn
  | some r => .stop r

/-- The state with the instruction stored where `step` fetches next: the two bytes at the guarded PC, big-endian. A
latched fault is lifted, without which the next step would not fetch. Assumption log 6. -/
def State.withFetchWord (s : State) (nbits w : Nat) : State := s.placeWord (BitVec.ofNat 16 (w % 2 ^ nbits))

end Sys2Proof.Machine
end

