-- ==== Sys2Proof/Machine/HostPort.lean ====
section
/-! DEFINITION. What the host can do to the core between steps (spec/00_scope.md R11, 60_exceptions.md R187): `Reset`,
`Load`, `Step(keys)`, `ReadFB`, `ReadTimer`, `WriteTimer`. Every run of the hardware is a list of these operations; where
a run ends is the spec's convention (70_reset_and_hazards.md R206). -/

namespace Sys2Proof.Machine

/-- The two timers of the timer port (60_exceptions.md R183). -/
inductive Timer where
  | dt
  | st
  deriving DecidableEq, Repr

/-- `ReadTimer(t)` (60_exceptions.md R183). -/
def State.readTimer (s : State) : Timer → Byte
  | .dt => s.dt
  | .st => s.st

/-- `WriteTimer(t, b)`: replaces the whole register, no other effect (60_exceptions.md R183). -/
def State.writeTimer (s : State) (t : Timer) (b : Byte) : State :=
  match t with
  | .dt => { s with dt := b }
  | .st => { s with st := b }

/-- The numeric code of a fault kind (60_exceptions.md R170). -/
def FaultKind.code : FaultKind → Nat
  | .stackUnderflow => 1
  | .stackOverflow => 2
  | .outOfBoundsMemoryAccess => 3
  | .programTooLarge => 4

/-- `Load(bytes, origin)`: copies the bytes, or fails with `ProgramTooLarge(n + origin)` and changes nothing; the
origin is 512 when not given (70_reset_and_hazards.md R203, 60_exceptions.md R176). -/
def State.load (s : State) (bytes : List Byte) (origin : Nat := Config.progOrigin) : Except (FaultKind × Nat) State :=
  if Config.memSize < bytes.length + origin then .error (.programTooLarge, bytes.length + origin)
  else .ok (s.storeBytes origin (fun k => bytes.getD k 0) bytes.length)

/-- A host operation (00_scope.md R11). -/
inductive HostOp where
  | reset (seed : Nat)
  | load (bytes : List Byte) (origin : Nat)
  | step (keys : BitVec 16)
  | readFB (r : Fin 32) (c : Fin 64)
  | readTimer (t : Timer)
  | writeTimer (t : Timer) (b : Byte)
  deriving DecidableEq, Repr

/-- What an operation returns to the host. -/
inductive HostReply where
  | done
  /-- `Load` failed: the kind and the information of 60_exceptions.md R170. -/
  | failed (kind : FaultKind) (info : Nat)
  | stepped (r : StepResult)
  | pixel (on : Bool)
  | timer (b : Byte)
  deriving DecidableEq, Repr

/-- Presents a key-state vector for the coming step (10_state.md R36, 60_exceptions.md R186). -/
def State.withKeys (s : State) (keys : BitVec 16) : State := { s with keys := keys }

/-- One host operation: the state after it and the reply (60_exceptions.md R187). -/
def hostDo (op : HostOp) (s : State) : Host.Outcome (State × HostReply) Fault Refusal :=
  match op with
  | .reset seed => .next (State.resetWith seed, .done)
  | .load bytes origin =>
    match s.load bytes origin with
    | .ok t => .next (t, .done)
    | .error (kind, info) => .next (s, .failed kind info)
  | .step keys =>
    match step (s.withKeys keys) with
    | .next t => .next (t, .stepped t.stepResult)
    | .fault r => .fault r
    | .refused r => .refused r
  | .readFB r c => .next (s, .pixel (s.pixel r c))
  | .readTimer t => .next (s, .timer (s.readTimer t))
  | .writeTimer t b => .next (s.writeTimer t b, .done)

/-- A run: the host's operations in order, stopping at the first that answers no next state. -/
def hostRun : List HostOp → State → Result
  | [], s => .next s
  | op :: ops, s =>
    match hostDo op s with
    | .next (t, _) => hostRun ops t
    | .fault r => .fault r
    | .refused r => .refused r

/-! ## The end of a run (70_reset_and_hazards.md R206) -/

/-- PC at a spin address and no fault: the word at PC is the jump 1NNN to its own address NNN. At 4095 no instruction
can stand (20_memory.md R53). It says nothing of what the host does next: it may write a timer, reset or load. -/
def State.atSpin (s : State) : Bool :=
  !s.halted && s.pc.toNat ≤ 4094 && s.fetchInstr == .jp (s.pc.setWidth 12)

/-- The end state of a run: the state at the first moment PC is at a spin address, nothing where the operations are
used up before that. -/
def runEnd : List HostOp → State → Option State
  | [], s => if s.atSpin then some s else none
  | op :: ops, s =>
    if s.atSpin then some s
    else
      match hostDo op s with
      | .next (t, _) => runEnd ops t
      | .fault _ => none
      | .refused _ => none

end Sys2Proof.Machine
end

