-- ==== Sys2Proof/Safety.lean ====
section
/-! DEFINITION. The terms the statements use: the invariant of the core, what an instruction may write, where PC goes,
and which pixels a sprite covers. -/

namespace Sys2Proof.Machine

/-! ## The invariant -/

/-- Every stack entry in use is an address a CALL pushed, in 2..4096 (40_flow.md R102). -/
def State.StackOk (s : State) : Prop :=
  ∀ k : Fin 16, k.val < s.sp.val → 2 ≤ s.stack[k].toNat ∧ s.stack[k].toNat ≤ 4096

/-- A latched fault is one of the three step-time kinds, of an instruction that can raise it, with the condition and
the information of 60_exceptions.md R170 still standing. -/
def State.FaultOk (s : State) : Prop :=
  ∀ r, s.fault = some r → r.addr.toNat ≤ 4094 ∧
    match r.kind with
    | .stackUnderflow => r.opcode = 0x00EE#16 ∧ s.sp.val = 0 ∧ r.info = 0
    | .stackOverflow => fieldG r.opcode = 0x2#4 ∧ s.sp.val = 16 ∧ r.info = 16
    | .outOfBoundsMemoryAccess => s.outOfBounds (dataBytes (decode r.opcode)) ∧ r.info = max s.i.toNat 4096
    | .programTooLarge => False

/-- The invariant: memory keeps its canonical form, PC never exceeds 4350 (10_state.md R25), and the stack and the
fault latch hold what the instructions put there. -/
structure State.Inv (s : State) : Prop where
  mem : s.mem.wf
  pc : s.pc.toNat ≤ 4350
  stack : s.StackOk
  fault : s.FaultOk

/-! ## Frames -/

/-- The parts of the state an instruction may write; PC is not among them, and ST and the key vector never are. -/
structure MayWrite where
  reg : Nibble → Prop := fun _ => False
  index : Prop := False
  dt : Prop := False
  stack : Prop := False
  byte : Nat → Prop := fun _ => False
  pixel : Fin 32 → Fin 64 → Prop := fun _ _ => False
  fault : Prop := False
  rng : Prop := False

/-- Everything but PC and the parts named is as it was: "an instruction writes exactly the state its rule lists"
(00_scope.md R8). -/
structure Frame (m : MayWrite) (s t : State) : Prop where
  reg : ∀ x, ¬ m.reg x → t.getV x = s.getV x
  index : ¬ m.index → t.i = s.i
  dt : ¬ m.dt → t.dt = s.dt
  st : t.st = s.st
  stack : ¬ m.stack → t.sp = s.sp ∧ t.stack = s.stack
  byte : ∀ a, ¬ m.byte a → t.mem.read a = s.mem.read a
  pixel : ∀ r c, ¬ m.pixel r c → t.pixel r c = s.pixel r c
  fault : ¬ m.fault → t.fault = s.fault
  rng : ¬ m.rng → t.rng = s.rng
  keys : t.keys = s.keys

/-- The pixels the 1 bits of an `n`-row sprite at (`V[x]`, `V[y]`) address (44_display.md R152 (a), the set M). -/
def State.spriteCovers (s : State) (x y n : Nibble) (r : Fin 32) (c : Fin 64) : Prop :=
  ∃ i j, i < n.toNat ∧ j < 8 ∧ (s.mem.read (s.i.toNat + i)).getLsbD (7 - j) = true ∧
    r.val = ((s.getV y).toNat + i) % 32 ∧ c.val = ((s.getV x).toNat + j) % 64

/-- What each instruction may write: 10_state.md R21, R22, R27, R28, R29, R37 and 20_memory.md R66. -/
def mayWrite (s : State) : Instr → MayWrite
  | .cls => { pixel := fun _ _ => True }
  | .ret | .call _ => { stack := True, fault := True }
  | .jp _ | .jpV0 _ | .seImm _ _ | .sneImm _ _ | .seReg _ _ | .sneReg _ _ | .skp _ | .sknp _ | .nop _ => {}
  | .ldImm x _ | .addImm x _ | .ldReg x _ | .orReg x _ | .andReg x _ | .xorReg x _ => { reg := fun r => r = x }
  | .addReg x _ | .subReg x _ | .shr x _ | .subnReg x _ | .shl x _ => { reg := fun r => r = x ∨ r = regVF }
  | .rnd x _ => { reg := fun r => r = x, rng := True }
  | .ldI _ | .addI _ | .ldF _ => { index := True }
  | .ldDT _ => { dt := True }
  | .drw x y n => { reg := fun r => r = regVF, pixel := s.spriteCovers x y n, fault := True }
  | .ldB _ => { byte := fun a => s.i.toNat ≤ a ∧ a ≤ s.i.toNat + 2, fault := True }
  | .stRegs x => { byte := fun a => s.i.toNat ≤ a ∧ a ≤ s.i.toNat + x.toNat, fault := True }
  | .ldRegs x => { reg := fun r => r.toNat ≤ x.toNat, fault := True }

/-! ## Where PC goes -/

/-- PC after an instruction that raises no fault (the table of 10_state.md R24); `s` is the state it executes in, so
`s.pc` is its own address. -/
def pcAfter (s : State) : Instr → Nat
  | .jp nnn => nnn.toNat
  | .call nnn => nnn.toNat
  | .ret => (s.stack[(s.sp.val - 1) % 16]).toNat
  | .jpV0 nnn => nnn.toNat + (s.getV 0).toNat
  | .seImm x nn => if s.getV x = nn then s.pc.toNat + 4 else s.pc.toNat + 2
  | .sneImm x nn => if s.getV x ≠ nn then s.pc.toNat + 4 else s.pc.toNat + 2
  | .seReg x y => if s.getV x = s.getV y then s.pc.toNat + 4 else s.pc.toNat + 2
  | .sneReg x y => if s.getV x ≠ s.getV y then s.pc.toNat + 4 else s.pc.toNat + 2
  | .skp x => if s.keyDown (s.getV x) then s.pc.toNat + 4 else s.pc.toNat + 2
  | .sknp x => if s.keyDown (s.getV x) then s.pc.toNat + 2 else s.pc.toNat + 4
  | .cls | .ldImm _ _ | .addImm _ _ | .ldReg _ _ | .orReg _ _ | .andReg _ _ | .xorReg _ _ | .addReg _ _ | .subReg _ _
  | .shr _ _ | .subnReg _ _ | .shl _ _ | .ldI _ | .rnd _ _ | .drw _ _ _ | .ldDT _ | .addI _ | .ldF _ | .ldB _
  | .stRegs _ | .ldRegs _ | .nop _ => s.pc.toNat + 2

end Sys2Proof.Machine
end

