-- ==== Sys2Proof/Certificates/Slice0/Obligations.lean ====
section
/-! DEFINITION. The statements for the provers, in the order of OBLIGATIONS.json. Each docstring names the rule of spec/
it formalises, or, where it rests on a decision the spec marks as its own, the decision. The encodings are written with
the expressions of the instruction rules, for example 0x8004 | X << 8 | Y << 4. -/

open Sys2Proof Sys2Proof.Machine

/-! ## Control flow -/

/-- O1. 40_flow.md R101: `JP NNN` sets PC to NNN and writes nothing else, so a jump to its own address is a spin; a jump
to 0xFFF is accepted and the next fetch is from 512. -/
def Obligations.JumpSetsPcToNnn : Prop :=
  ∀ (nnn : Addr12) (s : State),
    decode (0x1000#16 ||| nnn.setWidth 16) = .jp nnn ∧
    ∃ t, exec (.jp nnn) s = .next t ∧ t.pc.toNat = nnn.toNat ∧ Frame {} s t ∧
      (s.pc.toNat = nnn.toNat → t = s) ∧ (nnn = 0xFFF#12 → (fetchAddr t.pc).toNat = 512)

/-- O2. `CALL NNN` below depth 16 pushes its own address plus 2 and jumps. The pushed value is the spec's decision D5
and the stack's form its decision D14. -/
def Obligations.CallPushesReturnAddress : Prop :=
  ∀ (nnn : Addr12) (s : State), s.sp.val < 16 →
    decode (0x2000#16 ||| nnn.setWidth 16) = .call nnn ∧
    ∃ t, exec (.call nnn) s = .next t ∧ t.pc.toNat = nnn.toNat ∧ t.sp.val = s.sp.val + 1 ∧
      (∀ k : Fin 16, t.stack[k] = if k.val = s.sp.val then s.pc + 2 else s.stack[k]) ∧ Frame { stack := True } s t

/-- O3. 60_exceptions.md R172: 2NNN at SP = 16 raises `StackOverflow`; at SP = 15 it succeeds and fills the last
entry. -/
def Obligations.CallDepthIsSixteen : Prop :=
  ∀ (nnn : Addr12) (s : State),
    (s.sp.val = 16 → ∃ t r, exec (.call nnn) s = .next t ∧ t.fault = some r ∧ r.kind = .stackOverflow ∧
      t.sp = s.sp ∧ t.stack = s.stack) ∧
    (s.sp.val = 15 → ∃ t, exec (.call nnn) s = .next t ∧ t.sp.val = 16 ∧ t.fault = s.fault ∧
      ∀ k : Fin 16, k.val < 15 → t.stack[k] = s.stack[k])

/-- O4. 40_flow.md R100, 60_exceptions.md R171: `RET` sets PC to the newest entry, with no addition of 2, and the entry
leaves the sequence; under the invariant the value is in 2..4096; on an empty stack it raises `StackUnderflow` and
nothing changes but the latch. -/
def Obligations.RetPopsNewestEntry : Prop :=
  ∀ s : State, decode 0x00EE#16 = .ret ∧
    (0 < s.sp.val → ∃ t, exec .ret s = .next t ∧ t.sp.val + 1 = s.sp.val ∧ t.stack = s.stack ∧
      (∀ k : Fin 16, k.val + 1 = s.sp.val → t.pc = s.stack[k]) ∧ Frame { stack := True } s t ∧
      (s.Inv → 2 ≤ t.pc.toNat ∧ t.pc.toNat ≤ 4096) ∧ (4095 ≤ t.pc.toNat → (fetchAddr t.pc).toNat = 512)) ∧
    (s.sp.val = 0 → ∃ r, exec .ret s = .next { s with fault := some r } ∧ r.kind = .stackUnderflow ∧ r.info = 0)

/-- O5. A return after a call lands on the address after the call, with the stack depth as before, whatever ran at PC
in between (S3 of 95_test_vectors.md, 90_conflicts.md C2 and C7, decision D5). -/
def Obligations.RetUndoesCall : Prop :=
  ∀ (nnn : Addr12) (s t : State) (p : Word), s.sp.val < 16 → exec (.call nnn) s = .next t →
    ∃ u, exec .ret { t with pc := p } = .next u ∧ u.pc = s.pc + 2 ∧ u.sp = s.sp ∧
      ∀ k : Fin 16, k.val < s.sp.val → u.stack[k] = s.stack[k]

/-- O6. `JP V0, NNN` sets PC to the full sum NNN + V[0], whatever bits 11:8 are, and writes nothing else. That the sum
is not reduced is the spec's decision D23. -/
def Obligations.JumpV0SetsPcToSum : Prop :=
  ∀ (nnn : Addr12) (s : State),
    decode (0xB000#16 ||| nnn.setWidth 16) = .jpV0 nnn ∧
    ∃ t, exec (.jpV0 nnn) s = .next t ∧ t.pc.toNat = nnn.toNat + (s.getV 0).toNat ∧ t.pc.toNat ≤ 4350 ∧ Frame {} s t

/-- O7. 40_flow.md R104: an opcode that matches no row of the opcode map is a no-operation: PC + 2 and nothing else.
Among them FX07, FX0A, FX18 and every 0NNN other than 00E0 and 00EE. -/
def Obligations.UnrecognizedOpcodeIsNop : Prop :=
  (∀ (w : Word) (s : State), (∀ row ∈ opcodeMap, w &&& row.mask ≠ row.matchBits) →
    decode w = .nop w ∧ ∃ t, exec (.nop w) s = .next t ∧ t.pc = s.pc + 2 ∧ Frame {} s t) ∧
  (∀ (x : Nibble) (nn : Byte), nn ∈ [0x07#8, 0x0A#8, 0x18#8] →
    ∀ row ∈ opcodeMap, (0xF000#16 ||| x.setWidth 16 <<< 8 ||| nn.setWidth 16) &&& row.mask ≠ row.matchBits) ∧
  (∀ nnn : Addr12, nnn ≠ 0x0E0#12 → nnn ≠ 0x0EE#12 →
    ∀ row ∈ opcodeMap, nnn.setWidth 16 &&& row.mask ≠ row.matchBits)

/-! ## Skips -/

/-- O8. 41_skip.md R110, R111: the skips on an immediate: PC + 4 when the condition holds, else PC + 2, and nothing
else is written. -/
def Obligations.SkipOnImmediate : Prop :=
  ∀ (x : Nibble) (nn : Byte) (s : State),
    decode (0x3000#16 ||| x.setWidth 16 <<< 8 ||| nn.setWidth 16) = .seImm x nn ∧
    decode (0x4000#16 ||| x.setWidth 16 <<< 8 ||| nn.setWidth 16) = .sneImm x nn ∧
    (∃ t, exec (.seImm x nn) s = .next t ∧ t.pc = s.pc + (if s.getV x = nn then 4 else 2) ∧ Frame {} s t) ∧
    (∃ t, exec (.sneImm x nn) s = .next t ∧ t.pc = s.pc + (if s.getV x = nn then 2 else 4) ∧ Frame {} s t)

/-- O9. 41_skip.md R112, R113: the skips on two registers; with a low nibble that is not 0 the word is a
no-operation. -/
def Obligations.SkipOnRegisters : Prop :=
  ∀ (x y : Nibble) (s : State),
    decode (0x5000#16 ||| x.setWidth 16 <<< 8 ||| y.setWidth 16 <<< 4) = .seReg x y ∧
    decode (0x9000#16 ||| x.setWidth 16 <<< 8 ||| y.setWidth 16 <<< 4) = .sneReg x y ∧
    (∀ n : Nibble, n ≠ 0 →
      (decode (0x5000#16 ||| x.setWidth 16 <<< 8 ||| y.setWidth 16 <<< 4 ||| n.setWidth 16)).rule = 104 ∧
      (decode (0x9000#16 ||| x.setWidth 16 <<< 8 ||| y.setWidth 16 <<< 4 ||| n.setWidth 16)).rule = 104) ∧
    (∃ t, exec (.seReg x y) s = .next t ∧ t.pc = s.pc + (if s.getV x = s.getV y then 4 else 2) ∧ Frame {} s t) ∧
    (∃ t, exec (.sneReg x y) s = .next t ∧ t.pc = s.pc + (if s.getV x = s.getV y then 2 else 4) ∧ Frame {} s t)

/-! ## ALU -/

/-- O10. 42_alu.md R120: `LD Vx, NN`. -/
def Obligations.LoadImmediate : Prop :=
  ∀ (x : Nibble) (nn : Byte) (s : State),
    decode (0x6000#16 ||| x.setWidth 16 <<< 8 ||| nn.setWidth 16) = .ldImm x nn ∧
    ∃ t, exec (.ldImm x nn) s = .next t ∧ t.getV x = nn ∧ t.pc = s.pc + 2 ∧ Frame { reg := fun r => r = x } s t

/-- O11. 42_alu.md R121: `ADD Vx, NN` wraps modulo 256 and does not write VF, not even on a wrap. -/
def Obligations.AddImmediate : Prop :=
  ∀ (x : Nibble) (nn : Byte) (s : State),
    decode (0x7000#16 ||| x.setWidth 16 <<< 8 ||| nn.setWidth 16) = .addImm x nn ∧
    ∃ t, exec (.addImm x nn) s = .next t ∧ (t.getV x).toNat = ((s.getV x).toNat + nn.toNat) % 256 ∧
      t.pc = s.pc + 2 ∧ Frame { reg := fun r => r = x } s t

/-- O12. 42_alu.md R122: `LD Vx, Vy`. -/
def Obligations.CopyRegister : Prop :=
  ∀ (x y : Nibble) (s : State),
    decode (0x8000#16 ||| x.setWidth 16 <<< 8 ||| y.setWidth 16 <<< 4) = .ldReg x y ∧
    ∃ t, exec (.ldReg x y) s = .next t ∧ t.getV x = s.getV y ∧ t.pc = s.pc + 2 ∧ Frame { reg := fun r => r = x } s t

/-- O13. 42_alu.md R123, R124, R125: the logic instructions, bit by bit; VF is left unchanged unless it is the
destination. -/
def Obligations.LogicOperations : Prop :=
  ∀ (x y : Nibble) (s : State),
    decode (0x8001#16 ||| x.setWidth 16 <<< 8 ||| y.setWidth 16 <<< 4) = .orReg x y ∧
    decode (0x8002#16 ||| x.setWidth 16 <<< 8 ||| y.setWidth 16 <<< 4) = .andReg x y ∧
    decode (0x8003#16 ||| x.setWidth 16 <<< 8 ||| y.setWidth 16 <<< 4) = .xorReg x y ∧
    (∃ t, exec (.orReg x y) s = .next t ∧ t.pc = s.pc + 2 ∧ Frame { reg := fun r => r = x } s t ∧
      ∀ k, (t.getV x).getLsbD k = ((s.getV x).getLsbD k || (s.getV y).getLsbD k)) ∧
    (∃ t, exec (.andReg x y) s = .next t ∧ t.pc = s.pc + 2 ∧ Frame { reg := fun r => r = x } s t ∧
      ∀ k, (t.getV x).getLsbD k = ((s.getV x).getLsbD k && (s.getV y).getLsbD k)) ∧
    (∃ t, exec (.xorReg x y) s = .next t ∧ t.pc = s.pc + 2 ∧ Frame { reg := fun r => r = x } s t ∧
      ∀ k, (t.getV x).getLsbD k = ((s.getV x).getLsbD k ^^ (s.getV y).getLsbD k))

/-- O14. `ADD Vx, Vy`: the sum modulo 256 in `V[X]` and, for X other than 15, the carry in VF. Operands latched at the
start are the spec's decision D2; with X = 15 the sum remains, its decision D3. -/
def Obligations.AddRegistersWithCarry : Prop :=
  ∀ (x y : Nibble) (s : State),
    decode (0x8004#16 ||| x.setWidth 16 <<< 8 ||| y.setWidth 16 <<< 4) = .addReg x y ∧
    ∃ t, exec (.addReg x y) s = .next t ∧ (t.getV x).toNat = ((s.getV x).toNat + (s.getV y).toNat) % 256 ∧
      (x ≠ 0xF#4 → t.getV 0xF#4 = if 255 < (s.getV x).toNat + (s.getV y).toNat then 1 else 0) ∧
      t.pc = s.pc + 2 ∧ Frame { reg := fun r => r = x ∨ r = 0xF#4 } s t

/-- O15. `SUB Vx, Vy` and `SUBN Vx, Vy`: the difference modulo 256, and in VF, for X other than 15, whether the minuend
is strictly greater (90_conflicts.md C6; decisions D2 and D3 as for O14). -/
def Obligations.SubtractRegisters : Prop :=
  ∀ (x y : Nibble) (s : State),
    decode (0x8005#16 ||| x.setWidth 16 <<< 8 ||| y.setWidth 16 <<< 4) = .subReg x y ∧
    decode (0x8007#16 ||| x.setWidth 16 <<< 8 ||| y.setWidth 16 <<< 4) = .subnReg x y ∧
    (∃ t, exec (.subReg x y) s = .next t ∧ (t.getV x).toNat = (256 + (s.getV x).toNat - (s.getV y).toNat) % 256 ∧
      (x ≠ 0xF#4 → t.getV 0xF#4 = if (s.getV y).toNat < (s.getV x).toNat then 1 else 0) ∧
      t.pc = s.pc + 2 ∧ Frame { reg := fun r => r = x ∨ r = 0xF#4 } s t) ∧
    (∃ t, exec (.subnReg x y) s = .next t ∧ (t.getV x).toNat = (256 + (s.getV y).toNat - (s.getV x).toNat) % 256 ∧
      (x ≠ 0xF#4 → t.getV 0xF#4 = if (s.getV x).toNat < (s.getV y).toNat then 1 else 0) ∧
      t.pc = s.pc + 2 ∧ Frame { reg := fun r => r = x ∨ r = 0xF#4 } s t)

/-- O16. `SHR Vx` and `SHL Vx`: one bit position, the vacated bit 0, and in VF, for X other than 15, the bit shifted
out; any Y, and `V[Y]` is not used (decisions D2 and D3 as for O14). -/
def Obligations.ShiftOneBit : Prop :=
  ∀ (x y : Nibble) (s : State),
    decode (0x8006#16 ||| x.setWidth 16 <<< 8 ||| y.setWidth 16 <<< 4) = .shr x y ∧
    decode (0x800E#16 ||| x.setWidth 16 <<< 8 ||| y.setWidth 16 <<< 4) = .shl x y ∧
    (∃ t, exec (.shr x y) s = .next t ∧ (t.getV x).toNat = (s.getV x).toNat / 2 ∧
      (x ≠ 0xF#4 → (t.getV 0xF#4).toNat = (s.getV x).toNat % 2) ∧
      t.pc = s.pc + 2 ∧ Frame { reg := fun r => r = x ∨ r = 0xF#4 } s t) ∧
    (∃ t, exec (.shl x y) s = .next t ∧ (t.getV x).toNat = 2 * (s.getV x).toNat % 256 ∧
      (x ≠ 0xF#4 → (t.getV 0xF#4).toNat = (s.getV x).toNat / 128) ∧
      t.pc = s.pc + 2 ∧ Frame { reg := fun r => r = x ∨ r = 0xF#4 } s t)

/-- O17. Result and flag together give the exact result, for a destination other than VF (95_test_vectors.md section
2.3, the exhaustive properties): nothing is lost by the narrowing. -/
def Obligations.FlagAndResultAreExact : Prop :=
  ∀ (x y : Nibble) (s t : State), x ≠ 0xF#4 →
    (exec (.addReg x y) s = .next t →
      256 * (t.getV 0xF#4).toNat + (t.getV x).toNat = (s.getV x).toNat + (s.getV y).toNat) ∧
    (exec (.subReg x y) s = .next t →
      (t.getV 0xF#4 = 1 ∧ (s.getV x).toNat = (s.getV y).toNat + (t.getV x).toNat) ∨
      (t.getV 0xF#4 = 0 ∧ s.getV x ≠ s.getV y ∧ (s.getV x).toNat + 256 = (s.getV y).toNat + (t.getV x).toNat) ∨
      (t.getV 0xF#4 = 0 ∧ s.getV x = s.getV y ∧ t.getV x = 0)) ∧
    (exec (.subnReg x y) s = .next t →
      (t.getV 0xF#4 = 1 ∧ (s.getV y).toNat = (s.getV x).toNat + (t.getV x).toNat) ∨
      (t.getV 0xF#4 = 0 ∧ s.getV x ≠ s.getV y ∧ (s.getV y).toNat + 256 = (s.getV x).toNat + (t.getV x).toNat) ∨
      (t.getV 0xF#4 = 0 ∧ s.getV x = s.getV y ∧ t.getV x = 0)) ∧
    (exec (.shr x y) s = .next t → 2 * (t.getV x).toNat + (t.getV 0xF#4).toNat = (s.getV x).toNat) ∧
    (exec (.shl x y) s = .next t → 256 * (t.getV 0xF#4).toNat + (t.getV x).toNat = 2 * (s.getV x).toNat)

/-- O18. `RND Vx, NN`: the draw masked with NN, exactly one draw, also where NN = 0; no bit outside NN is ever set. The
draw is a free value (decision D12, assumption log 2): `Config.randomByte` has no body. -/
def Obligations.RandomIsMaskedDraw : Prop :=
  ∀ (x : Nibble) (nn : Byte) (s : State),
    decode (0xC000#16 ||| x.setWidth 16 <<< 8 ||| nn.setWidth 16) = .rnd x nn ∧
    ∃ t, exec (.rnd x nn) s = .next t ∧ t.getV x = Config.randomByte s.rng.seed s.rng.drawn &&& nn ∧
      (∀ k, nn.getLsbD k = false → (t.getV x).getLsbD k = false) ∧
      t.rng.seed = s.rng.seed ∧ t.rng.drawn = s.rng.drawn + 1 ∧
      t.pc = s.pc + 2 ∧ Frame { reg := fun r => r = x, rng := True } s t

/-! ## Index register and memory -/

/-- O19. 43_index_memory.md R140: `LD I, NNN`. -/
def Obligations.LoadIndex : Prop :=
  ∀ (nnn : Addr12) (s : State),
    decode (0xA000#16 ||| nnn.setWidth 16) = .ldI nnn ∧
    ∃ t, exec (.ldI nnn) s = .next t ∧ t.i.toNat = nnn.toNat ∧ t.pc = s.pc + 2 ∧ Frame { index := True } s t

/-- O20. `ADD I, Vx`: modulo 65536, no flag, no fault. The wrap is the spec's decision D10. -/
def Obligations.AddToIndex : Prop :=
  ∀ (x : Nibble) (s : State),
    decode (0xF01E#16 ||| x.setWidth 16 <<< 8) = .addI x ∧
    ∃ t, exec (.addI x) s = .next t ∧ t.i.toNat = (s.i.toNat + (s.getV x).toNat) % 65536 ∧
      t.pc = s.pc + 2 ∧ Frame { index := True } s t

/-- O21. 43_index_memory.md R142: `LD F, Vx`: the whole byte times 5, so a multiple of 5 in 0..1275; no memory is read,
so every memory gives the same, or written. -/
def Obligations.FontAddress : Prop :=
  ∀ (x : Nibble) (s : State),
    decode (0xF029#16 ||| x.setWidth 16 <<< 8) = .ldF x ∧
    ∃ t, exec (.ldF x) s = .next t ∧ t.i.toNat = (s.getV x).toNat * 5 ∧ t.i.toNat ≤ 1275 ∧
      t.pc = s.pc + 2 ∧ Frame { index := True } s t ∧
      ∀ m : Memory, exec (.ldF x) { s with mem := m } = .next { t with mem := m }

/-- O22. 43_index_memory.md R143: `LD B, Vx` stores the three decimal digits when I + 2 is inside memory, and else
raises `OutOfBoundsMemoryAccess` and writes no byte. -/
def Obligations.StoreDecimalDigits : Prop :=
  ∀ (x : Nibble) (s : State), s.mem.wf →
    decode (0xF033#16 ||| x.setWidth 16 <<< 8) = .ldB x ∧
    (s.i.toNat + 2 < 4096 → ∃ t, exec (.ldB x) s = .next t ∧
      (t.mem.read s.i.toNat).toNat = (s.getV x).toNat / 100 ∧
      (t.mem.read (s.i.toNat + 1)).toNat = (s.getV x).toNat / 10 % 10 ∧
      (t.mem.read (s.i.toNat + 2)).toNat = (s.getV x).toNat % 10 ∧ t.pc = s.pc + 2 ∧
      Frame { byte := fun a => s.i.toNat ≤ a ∧ a < s.i.toNat + 3 } s t) ∧
    (4096 ≤ s.i.toNat + 2 → ∃ t r, exec (.ldB x) s = .next t ∧ t.fault = some r ∧
      r.kind = .outOfBoundsMemoryAccess ∧ r.info = max s.i.toNat 4096 ∧ t.pc = s.pc ∧ Frame { fault := True } s t)

/-- O23. `LD [I], Vx` stores `V[0]`..`V[X]` at I..I + X, `V[k]` at I + k, and leaves I. The count X + 1 is the spec's
decision D7, that I is unchanged its decision D25. -/
def Obligations.StoreRegisters : Prop :=
  ∀ (x : Nibble) (s : State), s.mem.wf → s.i.toNat + x.toNat < 4096 →
    decode (0xF055#16 ||| x.setWidth 16 <<< 8) = .stRegs x ∧
    ∃ t, exec (.stRegs x) s = .next t ∧
      (∀ k : Nibble, k.toNat ≤ x.toNat → t.mem.read (s.i.toNat + k.toNat) = s.getV k) ∧ t.pc = s.pc + 2 ∧
      Frame { byte := fun a => s.i.toNat ≤ a ∧ a < s.i.toNat + (x.toNat + 1) } s t

/-- O24. `LD Vx, [I]` loads `V[0]`..`V[X]` from I..I + X and leaves I and the registers above `V[X]` (decisions D7 and
D25 as for O23). -/
def Obligations.LoadRegisters : Prop :=
  ∀ (x : Nibble) (s : State), s.i.toNat + x.toNat < 4096 →
    decode (0xF065#16 ||| x.setWidth 16 <<< 8) = .ldRegs x ∧
    ∃ t, exec (.ldRegs x) s = .next t ∧
      (∀ k : Nibble, k.toNat ≤ x.toNat → t.getV k = s.mem.read (s.i.toNat + k.toNat)) ∧ t.pc = s.pc + 2 ∧
      Frame { reg := fun r => r.toNat ≤ x.toNat } s t

/-- O25. FX55 then FX65 with the same X and I gives `V[0]`..`V[X]` back, whatever the registers hold in between
(S6 of 95_test_vectors.md, 90_conflicts.md C5, decision D7). -/
def Obligations.StoreLoadRoundTrip : Prop :=
  ∀ (x : Nibble) (s t : State) (v : Vector Byte 16), s.mem.wf → s.i.toNat + x.toNat < 4096 →
    exec (.stRegs x) s = .next t →
    ∃ u, exec (.ldRegs x) { t with v := v } = .next u ∧ u.i = s.i ∧
      ∀ k : Nibble, u.getV k = if k.toNat ≤ x.toNat then s.getV k else v[k.toNat]

/-- O26. 60_exceptions.md R173: the instructions that can raise `OutOfBoundsMemoryAccess`, and exactly when; a
step that latches it took it from the instruction executed, so the fetch never raises it. -/
def Obligations.OutOfBoundsConditions : Prop :=
  (∀ (i : Instr) (s : State), s.fault = none →
    ((∃ t r, exec i s = .next t ∧ t.fault = some r ∧ r.kind = .outOfBoundsMemoryAccess) ↔
      (∃ x y n : Nibble, i = .drw x y n ∧ 1 ≤ n.toNat ∧ 4096 ≤ s.i.toNat + n.toNat - 1) ∨
      (∃ x : Nibble, i = .ldB x ∧ 4096 ≤ s.i.toNat + 2) ∨
      (∃ x : Nibble, (i = .stRegs x ∨ i = .ldRegs x) ∧ 4096 ≤ s.i.toNat + x.toNat))) ∧
  (∀ (s t : State) (r : FaultRecord), s.fault = none → step s = .next t → t.fault = some r →
    r.kind = .outOfBoundsMemoryAccess → ∃ u, exec s.fetchInstr s.atFetch = .next u ∧ u.fault = some r)

/-- O27. An instruction whose data bytes are not all inside memory makes none of its accesses and none of its writes:
only the latch changes, and it records the lowest offending address. Decisions D8 and D24 of the spec; the opcode
recorded is the instruction's word. -/
def Obligations.OutOfBoundsHasNoPartialEffect : Prop :=
  ∀ (i : Instr) (s : State), 1 ≤ dataBytes i → 4096 ≤ s.i.toNat + (dataBytes i - 1) →
    exec i s = .next { s with fault := some { kind := .outOfBoundsMemoryAccess, addr := s.pc, opcode := encode i,
                                              info := max s.i.toNat 4096 } }

/-- O28. Every byte FX55 or FX33 stores, and every byte a `Load` between two steps puts in memory, is what every later
fetch reads, the very next one included, wherever PC is: FX55 with any X and FX33, at any I whose bytes lie in memory,
leave a state with PC + 2 and no new fault in which the opcode fetched at any PC is the two bytes `m` at the guarded PC,
where `m` is the stored byte inside the stored range and the byte from before outside it (20_memory.md section 7,
instruction-fetch coherence; decisions D4, D7 and, for `Load`, D16). -/
def Obligations.StoredCodeIsFetchedNext : Prop :=
  (∀ (x : Nibble) (s : State), s.mem.wf → s.i.toNat + x.toNat < 4096 →
    ∃ (t : State) (m : Nat → Byte), exec (.stRegs x) s = .next t ∧ t.pc = s.pc + 2 ∧ t.fault = s.fault ∧
      (∀ k : Nibble, k.toNat ≤ x.toNat → m (s.i.toNat + k.toNat) = s.getV k) ∧
      (∀ a, a < s.i.toNat ∨ s.i.toNat + x.toNat < a → m a = s.mem.read a) ∧
      ∀ p : Word, ({ t with pc := p } : State).opcode = m (fetchAddr p).toNat ++ m ((fetchAddr p).toNat + 1)) ∧
  (∀ (x : Nibble) (s : State), s.mem.wf → s.i.toNat + 2 < 4096 →
    ∃ (t : State) (m : Nat → Byte), exec (.ldB x) s = .next t ∧ t.pc = s.pc + 2 ∧ t.fault = s.fault ∧
      (m s.i.toNat).toNat = (s.getV x).toNat / 100 ∧ (m (s.i.toNat + 1)).toNat = (s.getV x).toNat / 10 % 10 ∧
      (m (s.i.toNat + 2)).toNat = (s.getV x).toNat % 10 ∧
      (∀ a, a < s.i.toNat ∨ s.i.toNat + 2 < a → m a = s.mem.read a) ∧
      ∀ p : Word, ({ t with pc := p } : State).opcode = m (fetchAddr p).toNat ++ m ((fetchAddr p).toNat + 1)) ∧
  (∀ (bytes : List Byte) (origin : Nat) (s : State), s.mem.wf → bytes.length + origin ≤ 4096 →
    ∃ (t : State) (m : Nat → Byte), hostDo (.load bytes origin) s = .next (t, .done) ∧ t.pc = s.pc ∧
      (∀ k (h : k < bytes.length), m (origin + k) = bytes[k]) ∧
      (∀ a, a < origin ∨ origin + bytes.length ≤ a → m a = s.mem.read a) ∧
      ∀ p : Word, ({ t with pc := p } : State).opcode = m (fetchAddr p).toNat ++ m ((fetchAddr p).toNat + 1))

/-! ## Display -/

/-- O29. 44_display.md R150: `CLS` turns every pixel off, PC + 2, nothing else; 0XE0 with X other than 0 is a
no-operation; and no other instruction turns a pixel off. -/
def Obligations.ClearScreen : Prop :=
  (∀ s : State, decode 0x00E0#16 = .cls ∧ ∃ t, exec .cls s = .next t ∧ (∀ r c, t.pixel r c = false) ∧
    t.pc = s.pc + 2 ∧ Frame { pixel := fun _ _ => True } s t) ∧
  (∀ x : Nibble, x ≠ 0 → (decode (0x00E0#16 ||| x.setWidth 16 <<< 8)).rule = 104) ∧
  (∀ (i : Instr) (s t : State) (r : Fin 32) (c : Fin 64), exec i s = .next t → s.pixel r c = true →
    t.pixel r c = false → i = .cls)

/-- O30. The drawing loop is a set operation: with M the pixels the sprite's 1 bits address, `FB <- FB or M`, and VF is
1 when M meets the pixels on at the start, else 0. Both axes wrap (90_conflicts.md C3) and drawing never clears
(C4). 44_display.md section 2 (a), with decisions D2 and D24. -/
def Obligations.DrawIsOrWithSprite : Prop :=
  ∀ (x y n : Nibble) (s : State), (n.toNat = 0 ∨ s.i.toNat + n.toNat - 1 < 4096) →
    decode (0xD000#16 ||| x.setWidth 16 <<< 8 ||| y.setWidth 16 <<< 4 ||| n.setWidth 16) = .drw x y n ∧
    ∃ t, exec (.drw x y n) s = .next t ∧
      (∀ r c, t.pixel r c = true ↔ s.pixel r c = true ∨ s.spriteCovers x y n r c) ∧
      (t.getV 0xF#4 = 0 ∨ t.getV 0xF#4 = 1) ∧
      (t.getV 0xF#4 = 1 ↔ ∃ r c, s.spriteCovers x y n r c ∧ s.pixel r c = true) ∧
      t.pc = s.pc + 2 ∧ Frame { reg := fun r => r = 0xF#4, pixel := s.spriteCovers x y n } s t

/-- O31. Drawing the same sprite twice changes no pixel the second time, and the second VF is 1 exactly when the sprite
has a 1 bit (44_display.md section 2 (h); S4 of 95_test_vectors.md). -/
def Obligations.DrawTwiceCollides : Prop :=
  ∀ (x y n : Nibble) (s t : State), x ≠ 0xF#4 → y ≠ 0xF#4 → (n.toNat = 0 ∨ s.i.toNat + n.toNat - 1 < 4096) →
    exec (.drw x y n) s = .next t →
    ∃ u, exec (.drw x y n) t = .next u ∧ (∀ r c, u.pixel r c = t.pixel r c) ∧
      (u.getV 0xF#4 = 1 ↔ ∃ i j, i < n.toNat ∧ j < 8 ∧ (s.mem.read (s.i.toNat + i)).getLsbD j = true)

/-! ## Keypad and timers -/

/-- O32. `SKP Vx` skips when the key numbered `V[X]` is one of 0..15 and its bit of the key vector is 1, `SKNP Vx`
skips when not; nothing but PC is written. A key number above 15 counts as not down: the spec's decision D11. -/
def Obligations.KeySkips : Prop :=
  ∀ (x : Nibble) (s : State),
    decode (0xE09E#16 ||| x.setWidth 16 <<< 8) = .skp x ∧ decode (0xE0A1#16 ||| x.setWidth 16 <<< 8) = .sknp x ∧
    (∃ t, exec (.skp x) s = .next t ∧ Frame {} s t ∧
      t.pc = s.pc + (if (s.getV x).toNat ≤ 15 ∧ s.keys.getLsbD (s.getV x).toNat = true then 4 else 2)) ∧
    (∃ t, exec (.sknp x) s = .next t ∧ Frame {} s t ∧
      t.pc = s.pc + (if (s.getV x).toNat ≤ 15 ∧ s.keys.getLsbD (s.getV x).toNat = true then 2 else 4))

/-- O33. The key vector is read by EX9E and EXA1 alone and written by no step: a step of any other instruction does the
same under every vector (60_exceptions.md section 6, key-state input; decisions D8, D19 and D22). -/
def Obligations.KeysMatterToKeySkipsOnly : Prop :=
  ∀ (s t : State) (k : BitVec 16), step s = .next t →
    t.keys = s.keys ∧
    ((∀ x : Nibble, s.fetchInstr ≠ .skp x ∧ s.fetchInstr ≠ .sknp x) → step (s.withKeys k) = .next (t.withKeys k))

/-- O34. 45_keypad_timer.md R162: `LD DT, Vx`; no other instruction changes DT, none reads it, and none writes ST. -/
def Obligations.LoadDelayTimer : Prop :=
  (∀ (x : Nibble) (s : State),
    decode (0xF015#16 ||| x.setWidth 16 <<< 8) = .ldDT x ∧
    ∃ t, exec (.ldDT x) s = .next t ∧ t.dt = s.getV x ∧ t.pc = s.pc + 2 ∧ Frame { dt := True } s t) ∧
  (∀ (i : Instr) (s t : State) (b : Byte), exec i s = .next t →
    t.st = s.st ∧ ((∀ x, i ≠ .ldDT x) → t.dt = s.dt ∧ exec i { s with dt := b } = .next { t with dt := b }))

/-- O35. The timers are invisible to the program: two runs that differ only in DT and ST differ after a step in nothing
else (60_exceptions.md section 5; 70_reset_and_hazards.md section 4; decisions D8 and D18). -/
def Obligations.TimersAreInvisible : Prop :=
  ∀ (s t : State) (d e : Byte), step s = .next t →
    ∃ u, step { s with dt := d, st := e } = .next u ∧ u.st = e ∧
      { u with dt := t.dt, st := t.st } = t

/-! ## The instruction cycle and faults -/

/-- O36. When the bytes at the guarded PC decode to the instruction i, exec of i with PC at that address answers a state
t, and the step of a core that is not halted answers t, or, where i took a fault, the state before the step with that
fault latched (10_state.md section 10; decisions D4 and D8). -/
def Obligations.StepRunsDecodedInstruction : Prop :=
  ∀ (s : State) (i : Instr) (a : Nat), s.fault = none → a = (if 4095 ≤ s.pc.toNat then 512 else s.pc.toNat) →
    decode (s.mem.read a ++ s.mem.read (a + 1)) = i →
    ∃ t, exec i { s with pc := BitVec.ofNat 16 a } = .next t ∧
      step s = .next (if t.fault = none then t else { s with fault := t.fault })

/-- O37. 20_memory.md R52: the opcode is two consecutive bytes, most significant first, and both lie inside memory. -/
def Obligations.FetchIsBigEndian : Prop :=
  ∀ s : State, s.opcode.toNat =
      (s.mem.read (fetchAddr s.pc).toNat).toNat * 256 + (s.mem.read ((fetchAddr s.pc).toNat + 1)).toNat ∧
    (fetchAddr s.pc).toNat + 1 ≤ 4095

/-- O38. The fetch guard: PC of 4095 or more executes the instruction at 512 in the same step, any smaller PC is
fetched as it is (decision D4). The instruction that runs is the one a core with PC = 512 would run, and where no fault
is taken the states after are equal. -/
def Obligations.FetchGuardContinuesAt512 : Prop :=
  (∀ pc : Word, (fetchAddr pc).toNat = if 4095 ≤ pc.toNat then 512 else pc.toNat) ∧
  (∀ s t : State, s.fault = none → 4095 ≤ s.pc.toNat → step { s with pc := 512#16 } = .next t →
    (t.fault = none → step s = .next t) ∧ (t.fault ≠ none → step s = .next { t with pc := s.pc }))

/-- O39. Every step of every state answers a next state: no instruction faults out of the machine and none is refused
(10_state.md section 10: "normal operation always continues"; decisions D8 and D19 for the faulting and the halted
step). -/
def Obligations.EveryStepAnswersNext : Prop :=
  (∀ s : State, ∃ t, step s = .next t) ∧ (∀ (i : Instr) (s : State), ∃ t, exec i s = .next t)

/-- O40. A halted core ignores `Step`, and no host operation but `Reset` clears the latch or replaces the fault in it
(decision D19). -/
def Obligations.HaltedUntilReset : Prop :=
  ∀ (s : State) (r : FaultRecord), s.fault = some r →
    step s = .next s ∧
    ∀ (op : HostOp) (t : State) (reply : HostReply), (∀ seed, op ≠ .reset seed) → hostDo op s = .next (t, reply) →
      t.fault = some r ∧ t.v = s.v ∧ t.i = s.i ∧ t.pc = s.pc ∧ t.sp = s.sp ∧ t.stack = s.stack ∧ t.fb = s.fb ∧
        t.rng = s.rng

/-- O41. Faults are precise: a step that takes one changes nothing but the latch, which records the fetch address, the
opcode fetched, and the kind and information of 60_exceptions.md section 1 (decisions D8 and D9). -/
def Obligations.FaultsArePrecise : Prop :=
  ∀ s t : State, s.fault = none → step s = .next t → t.fault ≠ none →
    ∃ r, t = { s with fault := some r } ∧ r.addr = fetchAddr s.pc ∧ r.opcode = s.opcode ∧
      ((r.kind = .stackUnderflow ∧ s.opcode = 0x00EE#16 ∧ s.sp.val = 0 ∧ r.info = 0) ∨
       (r.kind = .stackOverflow ∧ s.opcode &&& 0xF000#16 = 0x2000#16 ∧ s.sp.val = 16 ∧ r.info = 16) ∨
       (r.kind = .outOfBoundsMemoryAccess ∧ 1 ≤ dataBytes s.fetchInstr ∧
         4096 ≤ s.i.toNat + (dataBytes s.fetchInstr - 1) ∧ r.info = max s.i.toNat 4096))

/-- O42. PC after every step: the table of 10_state.md section 3 by instruction, and after a fault the value from
before the step (decisions D4, D5, D8, D11 and D23). -/
def Obligations.PcAfterEveryStep : Prop :=
  ∀ s t : State, s.fault = none → step s = .next t →
    (t.fault = none → t.pc.toNat = pcAfter s.atFetch s.fetchInstr) ∧ (t.fault ≠ none → t.pc = s.pc)

/-- O43. A spin (`State.atSpin`), no fault and at PC = NNN, at most 4094, the jump 1NNN, is a fixed point of the step:
from it every run of steps leaves the same state but for the key vector the host gives. What that does not say: a timer
write changes the timer, and the core spins on; `Reset` ends the spin; a `Load` over the jump ends it
(70_reset_and_hazards.md section 3, decision D21). -/
def Obligations.SpinIsFixedPoint : Prop :=
  (∀ s : State, s.atSpin = true ↔
    s.fault = none ∧ s.pc.toNat ≤ 4094 ∧ s.mem.fetch16 s.pc.toNat = 0x1000#16 ||| s.pc) ∧
  ∀ s : State, s.atSpin = true →
    step s = .next s ∧
    (∀ keys : List (BitVec 16), hostRun (keys.map .step) s = .next (s.withKeys (keys.getLastD s.keys))) ∧
    (∀ (timer : Timer) (b : Byte), ∃ t, hostDo (.writeTimer timer b) s = .next (t, .done) ∧ t.readTimer timer = b ∧
      t.atSpin = true) ∧
    (∀ seed : Nat, ∃ t, hostDo (.reset seed) s = .next (t, .done) ∧ t.atSpin = false) ∧
    (s.mem.wf → ∃ t, hostDo (.load [0x00#8, 0x00#8] s.pc.toNat) s = .next (t, .done) ∧ t.atSpin = false)

/-- O44. The generator advances by exactly one draw in a step that executes CXNN and not otherwise, and its seed never
changes (10_state.md section 8; decision D12). -/
def Obligations.OneDrawPerRandomInstruction : Prop :=
  ∀ s t : State, step s = .next t →
    t.rng.seed = s.rng.seed ∧
    t.rng.drawn = s.rng.drawn + (if s.fault = none ∧ s.opcode &&& 0xF000#16 = 0xC000#16 then 1 else 0)

/-! ## Whole-machine rules -/

/-- O45. The frame of every instruction: it writes only what the spec lists for it (`mayWrite`: 10_state.md sections 1,
2, 4 to 8 and 20_memory.md section 8; decision D25), in every state whose memory has its canonical form. -/
def Obligations.InstructionsWriteOnlyTheirState : Prop :=
  ∀ (i : Instr) (s t : State), s.mem.wf → exec i s = .next t → Frame (mayWrite s i) s t

/-- O46. The invariant holds after Reset, whatever the seed. -/
def Obligations.ResetSatisfiesInvariant : Prop := ∀ seed : Nat, (State.resetWith seed).Inv

/-- O47. Every step keeps the invariant: memory's canonical form, PC at most 4350 (10_state.md section 3), stack entries
in 2..4096 and a fault record that says what happened. From every state that meets it, reached or not. -/
def Obligations.StepKeepsInvariant : Prop := ∀ s t : State, s.Inv → step s = .next t → t.Inv

/-- O48. Every host operation keeps the invariant, and so every state a host can bring the core to has it: any seed, any
loads, any keys at each step, any timer writes (60_exceptions.md section 6, the host's table). -/
def Obligations.EveryHostRunKeepsInvariant : Prop :=
  (∀ (op : HostOp) (s t : State) (reply : HostReply), s.Inv → hostDo op s = .next (t, reply) → t.Inv) ∧
  (∀ (seed : Nat) (ops : List HostOp) (t : State), hostRun ops (State.resetWith seed) = .next t → t.Inv)

/-! ## Reset and the host -/

/-- O49. The state after `Reset(seed)`, from every state, a halted one and one with a program in memory included: the
table of 10_state.md section 9 (70_reset_and_hazards.md section 1; decisions D12, D13, D14 and D20). -/
def Obligations.ResetState : Prop :=
  ∀ (seed : Nat) (s : State), ∃ t, hostDo (.reset seed) s = .next (t, .done) ∧
    (∀ x, t.getV x = 0) ∧ t.i = 0 ∧ t.pc.toNat = 512 ∧ t.dt = 0 ∧ t.st = 0 ∧ (∀ a, t.mem.read a = 0) ∧ t.sp.val = 0 ∧
    (∀ r c, t.pixel r c = false) ∧ t.fault = none ∧ t.rng.seed = seed ∧ t.rng.drawn = 0

/-- O50. 70_reset_and_hazards.md R201: the entry point is 512 whatever was loaded where: PC does not follow the origin
of a `Load`, and the first step fetches from `MEM[512]` and `MEM[513]`. -/
def Obligations.EntryPointIs512 : Prop :=
  ∀ (seed origin : Nat) (bytes : List Byte) (t : State), (State.resetWith seed).load bytes origin = .ok t →
    t.pc.toNat = 512 ∧ t.opcode.toNat = (t.mem.read 512).toNat * 256 + (t.mem.read 513).toNat

/-- O51. `Load` copies its bytes and changes nothing else, or fails with `ProgramTooLarge` and changes nothing, and it
is not latched (decision D16). -/
def Obligations.LoadIsAllOrNothing : Prop :=
  ∀ (bytes : List Byte) (origin : Nat) (s : State), s.mem.wf →
    (bytes.length + origin ≤ 4096 → ∃ t, hostDo (.load bytes origin) s = .next (t, .done) ∧
      (∀ k (h : k < bytes.length), t.mem.read (origin + k) = bytes[k]) ∧ t.pc = s.pc ∧
      Frame { byte := fun a => origin ≤ a ∧ a < origin + bytes.length } s t) ∧
    (4096 < bytes.length + origin →
      hostDo (.load bytes origin) s = .next (s, .failed .programTooLarge (bytes.length + origin)))

/-- O52. The timer port and the framebuffer port: a timer write replaces that timer and nothing else and is read back,
also on a halted core; reading changes nothing (60_exceptions.md sections 5 and 6; decisions D18 and D19). -/
def Obligations.HostPorts : Prop :=
  ∀ (s : State) (b : Byte) (r : Fin 32) (c : Fin 64),
    (∃ t, hostDo (.writeTimer .dt b) s = .next (t, .done) ∧ hostDo (.readTimer .dt) t = .next (t, .timer b) ∧
      hostDo (.readTimer .st) t = .next (t, .timer s.st) ∧ t.pc = s.pc ∧ Frame { dt := True } s t) ∧
    (∃ t, hostDo (.writeTimer .st b) s = .next (t, .done) ∧ hostDo (.readTimer .st) t = .next (t, .timer b) ∧
      t.pc = s.pc ∧ { t with st := s.st } = s) ∧
    hostDo (.readFB r c) s = .next (s, .pixel (s.pixel r c))

/-- O53. `Step(keys)` through the port: the keys given decide the step, and the reply is `Continue` exactly when no
fault stands afterwards, `Stop` with the latched record otherwise (10_state.md section 10; decisions D8, D19, D22). -/
def Obligations.StepReplyTellsFault : Prop :=
  ∀ (s : State) (k : BitVec 16), ∃ t reply, hostDo (.step k) s = .next (t, .stepped reply) ∧
    step (s.withKeys k) = .next t ∧ (reply = .goOn ↔ t.fault = none) ∧ (∀ r, reply = .stop r ↔ t.fault = some r)

/-! ## Encoding -/

/-- O54. Decoding an encoded well-formed instruction gives it back, every operand at every value (30_encoding.md
sections 1 to 3; decision D6 for the no-operation's words). -/
def Obligations.DecodeOfEncode : Prop := ∀ i : Instr, i.wellFormed = true → decode (encode i) = i

/-- O55. Every word decodes to a well-formed instruction whose word it is: no two words mean the same instruction
(30_encoding.md sections 3 and 4; decision D6). -/
def Obligations.EncodeOfDecode : Prop := ∀ w : Word, (decode w).wellFormed = true ∧ encode (decode w) = w

/-- O56. The dispatch by groups and the opcode map by match and mask select the same rule for every word
(30_encoding.md section 3; decision D6). -/
def Obligations.DispatchAgreesWithOpcodeMap : Prop := ∀ w : Word, (decode w).rule = selectedRule w

/-- O57. The rows of the opcode map are mutually exclusive (30_encoding.md section 3). -/
def Obligations.OpcodeRowsAreExclusive : Prop :=
  ∀ w : Word, opcodeMap.Pairwise fun r q => ¬ (r.selects w = true ∧ q.selects w = true)

/-- O58. The unrecognized space, as 30_encoding.md section 4 lists it, is exactly what no row matches (decision D6). -/
def Obligations.UnrecognizedSpaceAsListed : Prop :=
  ∀ w : Word, unrecognized w = true ↔ ∀ row ∈ opcodeMap, w &&& row.mask ≠ row.matchBits

/-- O59. Words written out from the opcode map decode to what they stand for: one or more of every family, the source's
own 6A05 and the field example D7A5 among them (30_encoding.md section 1; 95_test_vectors.md section 2.1). -/
def Obligations.WordsDecodeAsWritten : Prop :=
  decode 0x6A05#16 = .ldImm 0xA#4 0x05#8 ∧ decode 0x00E0#16 = .cls ∧ decode 0x00EE#16 = .ret ∧
  decode 0x1234#16 = .jp 0x234#12 ∧ decode 0xB300#16 = .jpV0 0x300#12 ∧ decode 0x332A#16 = .seImm 0x3#4 0x2A#8 ∧
  decode 0x8AB4#16 = .addReg 0xA#4 0xB#4 ∧ decode 0xD7A5#16 = .drw 0x7#4 0xA#4 0x5#4 ∧
  decode 0xE1A1#16 = .sknp 0x1#4 ∧ decode 0xF315#16 = .ldDT 0x3#4 ∧ decode 0xF265#16 = .ldRegs 0x2#4 ∧
  decode 0xF207#16 = .nop 0xF207#16

/-! ## The end of a run -/

/-- O60. The end state of a run is the state at the first moment PC is at a spin address with no fault: `runEnd` answers
exactly the state after the shortest part of the host's operations that ends in such a state (70_reset_and_hazards.md
section 3, decision D21). It is a convention for stating tests: the machine itself does not stop there. -/
def Obligations.RunEndIsFirstSpin : Prop :=
  ∀ (ops : List HostOp) (s t : State), runEnd ops s = some t ↔
    ∃ k, k ≤ ops.length ∧ hostRun (ops.take k) s = .next t ∧ t.atSpin = true ∧
      ∀ j u, j < k → hostRun (ops.take j) s = .next u → u.atSpin = false
end

