-- ==== Sys2Proof/Laws/State.lean ====
section
/-! SUPPORT. One lemma per field per update of the state, each true by unfolding, so that no proof unfolds a record
update; and the reads of a register and a pixel through the updates that leave them. -/

namespace Sys2Proof.Machine

variable (s : State)

/-! ### setV -/

@[simp] theorem State.setV_v (x : Nibble) (b : Byte) : (s.setV x b).v = s.v.set x.toNat b x.isLt := rfl
@[simp] theorem State.setV_i (x : Nibble) (b : Byte) : (s.setV x b).i = s.i := rfl
@[simp] theorem State.setV_pc (x : Nibble) (b : Byte) : (s.setV x b).pc = s.pc := rfl
@[simp] theorem State.setV_dt (x : Nibble) (b : Byte) : (s.setV x b).dt = s.dt := rfl
@[simp] theorem State.setV_st (x : Nibble) (b : Byte) : (s.setV x b).st = s.st := rfl
@[simp] theorem State.setV_sp (x : Nibble) (b : Byte) : (s.setV x b).sp = s.sp := rfl
@[simp] theorem State.setV_stack (x : Nibble) (b : Byte) : (s.setV x b).stack = s.stack := rfl
@[simp] theorem State.setV_mem (x : Nibble) (b : Byte) : (s.setV x b).mem = s.mem := rfl
@[simp] theorem State.setV_fb (x : Nibble) (b : Byte) : (s.setV x b).fb = s.fb := rfl
@[simp] theorem State.setV_fault (x : Nibble) (b : Byte) : (s.setV x b).fault = s.fault := rfl
@[simp] theorem State.setV_rng (x : Nibble) (b : Byte) : (s.setV x b).rng = s.rng := rfl
@[simp] theorem State.setV_keys (x : Nibble) (b : Byte) : (s.setV x b).keys = s.keys := rfl
@[simp] theorem State.setV_pixel (x : Nibble) (b : Byte) (r : Fin 32) (c : Fin 64) : (s.setV x b).pixel r c = s.pixel r c := rfl

/-! ### setI -/

@[simp] theorem State.setI_v (w : Word) : (s.setI w).v = s.v := rfl
@[simp] theorem State.setI_i (w : Word) : (s.setI w).i = w := rfl
@[simp] theorem State.setI_pc (w : Word) : (s.setI w).pc = s.pc := rfl
@[simp] theorem State.setI_dt (w : Word) : (s.setI w).dt = s.dt := rfl
@[simp] theorem State.setI_st (w : Word) : (s.setI w).st = s.st := rfl
@[simp] theorem State.setI_sp (w : Word) : (s.setI w).sp = s.sp := rfl
@[simp] theorem State.setI_stack (w : Word) : (s.setI w).stack = s.stack := rfl
@[simp] theorem State.setI_mem (w : Word) : (s.setI w).mem = s.mem := rfl
@[simp] theorem State.setI_fb (w : Word) : (s.setI w).fb = s.fb := rfl
@[simp] theorem State.setI_fault (w : Word) : (s.setI w).fault = s.fault := rfl
@[simp] theorem State.setI_rng (w : Word) : (s.setI w).rng = s.rng := rfl
@[simp] theorem State.setI_keys (w : Word) : (s.setI w).keys = s.keys := rfl
@[simp] theorem State.setI_getV (w : Word) (y : Nibble) : (s.setI w).getV y = s.getV y := rfl
@[simp] theorem State.setI_pixel (w : Word) (r : Fin 32) (c : Fin 64) : (s.setI w).pixel r c = s.pixel r c := rfl

/-! ### setDT -/

@[simp] theorem State.setDT_v (b : Byte) : (s.setDT b).v = s.v := rfl
@[simp] theorem State.setDT_i (b : Byte) : (s.setDT b).i = s.i := rfl
@[simp] theorem State.setDT_pc (b : Byte) : (s.setDT b).pc = s.pc := rfl
@[simp] theorem State.setDT_dt (b : Byte) : (s.setDT b).dt = b := rfl
@[simp] theorem State.setDT_st (b : Byte) : (s.setDT b).st = s.st := rfl
@[simp] theorem State.setDT_sp (b : Byte) : (s.setDT b).sp = s.sp := rfl
@[simp] theorem State.setDT_stack (b : Byte) : (s.setDT b).stack = s.stack := rfl
@[simp] theorem State.setDT_mem (b : Byte) : (s.setDT b).mem = s.mem := rfl
@[simp] theorem State.setDT_fb (b : Byte) : (s.setDT b).fb = s.fb := rfl
@[simp] theorem State.setDT_fault (b : Byte) : (s.setDT b).fault = s.fault := rfl
@[simp] theorem State.setDT_rng (b : Byte) : (s.setDT b).rng = s.rng := rfl
@[simp] theorem State.setDT_keys (b : Byte) : (s.setDT b).keys = s.keys := rfl
@[simp] theorem State.setDT_getV (b : Byte) (y : Nibble) : (s.setDT b).getV y = s.getV y := rfl
@[simp] theorem State.setDT_pixel (b : Byte) (r : Fin 32) (c : Fin 64) : (s.setDT b).pixel r c = s.pixel r c := rfl

/-! ### jump -/

@[simp] theorem State.jump_v (t : Word) : (s.jump t).v = s.v := rfl
@[simp] theorem State.jump_i (t : Word) : (s.jump t).i = s.i := rfl
@[simp] theorem State.jump_pc (t : Word) : (s.jump t).pc = t := rfl
@[simp] theorem State.jump_dt (t : Word) : (s.jump t).dt = s.dt := rfl
@[simp] theorem State.jump_st (t : Word) : (s.jump t).st = s.st := rfl
@[simp] theorem State.jump_sp (t : Word) : (s.jump t).sp = s.sp := rfl
@[simp] theorem State.jump_stack (t : Word) : (s.jump t).stack = s.stack := rfl
@[simp] theorem State.jump_mem (t : Word) : (s.jump t).mem = s.mem := rfl
@[simp] theorem State.jump_fb (t : Word) : (s.jump t).fb = s.fb := rfl
@[simp] theorem State.jump_fault (t : Word) : (s.jump t).fault = s.fault := rfl
@[simp] theorem State.jump_rng (t : Word) : (s.jump t).rng = s.rng := rfl
@[simp] theorem State.jump_keys (t : Word) : (s.jump t).keys = s.keys := rfl
@[simp] theorem State.jump_getV (t : Word) (y : Nibble) : (s.jump t).getV y = s.getV y := rfl
@[simp] theorem State.jump_pixel (t : Word) (r : Fin 32) (c : Fin 64) : (s.jump t).pixel r c = s.pixel r c := rfl

/-! ### advance -/

@[simp] theorem State.advance_v : (s.advance).v = s.v := rfl
@[simp] theorem State.advance_i : (s.advance).i = s.i := rfl
@[simp] theorem State.advance_pc : (s.advance).pc = s.pc + 2 := rfl
@[simp] theorem State.advance_dt : (s.advance).dt = s.dt := rfl
@[simp] theorem State.advance_st : (s.advance).st = s.st := rfl
@[simp] theorem State.advance_sp : (s.advance).sp = s.sp := rfl
@[simp] theorem State.advance_stack : (s.advance).stack = s.stack := rfl
@[simp] theorem State.advance_mem : (s.advance).mem = s.mem := rfl
@[simp] theorem State.advance_fb : (s.advance).fb = s.fb := rfl
@[simp] theorem State.advance_fault : (s.advance).fault = s.fault := rfl
@[simp] theorem State.advance_rng : (s.advance).rng = s.rng := rfl
@[simp] theorem State.advance_keys : (s.advance).keys = s.keys := rfl
@[simp] theorem State.advance_getV (y : Nibble) : (s.advance).getV y = s.getV y := rfl
@[simp] theorem State.advance_pixel (r : Fin 32) (c : Fin 64) : (s.advance).pixel r c = s.pixel r c := rfl

/-! ### storeBytes -/

@[simp] theorem State.storeBytes_v (a : Nat) (f : Nat → Byte) (n : Nat) : (s.storeBytes a f n).v = s.v := rfl
@[simp] theorem State.storeBytes_i (a : Nat) (f : Nat → Byte) (n : Nat) : (s.storeBytes a f n).i = s.i := rfl
@[simp] theorem State.storeBytes_pc (a : Nat) (f : Nat → Byte) (n : Nat) : (s.storeBytes a f n).pc = s.pc := rfl
@[simp] theorem State.storeBytes_dt (a : Nat) (f : Nat → Byte) (n : Nat) : (s.storeBytes a f n).dt = s.dt := rfl
@[simp] theorem State.storeBytes_st (a : Nat) (f : Nat → Byte) (n : Nat) : (s.storeBytes a f n).st = s.st := rfl
@[simp] theorem State.storeBytes_sp (a : Nat) (f : Nat → Byte) (n : Nat) : (s.storeBytes a f n).sp = s.sp := rfl
@[simp] theorem State.storeBytes_stack (a : Nat) (f : Nat → Byte) (n : Nat) : (s.storeBytes a f n).stack = s.stack := rfl
@[simp] theorem State.storeBytes_mem (a : Nat) (f : Nat → Byte) (n : Nat) : (s.storeBytes a f n).mem = s.mem.storeBytes a f n := rfl
@[simp] theorem State.storeBytes_fb (a : Nat) (f : Nat → Byte) (n : Nat) : (s.storeBytes a f n).fb = s.fb := rfl
@[simp] theorem State.storeBytes_fault (a : Nat) (f : Nat → Byte) (n : Nat) : (s.storeBytes a f n).fault = s.fault := rfl
@[simp] theorem State.storeBytes_rng (a : Nat) (f : Nat → Byte) (n : Nat) : (s.storeBytes a f n).rng = s.rng := rfl
@[simp] theorem State.storeBytes_keys (a : Nat) (f : Nat → Byte) (n : Nat) : (s.storeBytes a f n).keys = s.keys := rfl
@[simp] theorem State.storeBytes_getV (a : Nat) (f : Nat → Byte) (n : Nat) (y : Nibble) : (s.storeBytes a f n).getV y = s.getV y := rfl
@[simp] theorem State.storeBytes_pixel (a : Nat) (f : Nat → Byte) (n : Nat) (r : Fin 32) (c : Fin 64) : (s.storeBytes a f n).pixel r c = s.pixel r c := rfl

/-! ### setFB -/

@[simp] theorem State.setFB_v (fb : FrameBuffer) : (s.setFB fb).v = s.v := rfl
@[simp] theorem State.setFB_i (fb : FrameBuffer) : (s.setFB fb).i = s.i := rfl
@[simp] theorem State.setFB_pc (fb : FrameBuffer) : (s.setFB fb).pc = s.pc := rfl
@[simp] theorem State.setFB_dt (fb : FrameBuffer) : (s.setFB fb).dt = s.dt := rfl
@[simp] theorem State.setFB_st (fb : FrameBuffer) : (s.setFB fb).st = s.st := rfl
@[simp] theorem State.setFB_sp (fb : FrameBuffer) : (s.setFB fb).sp = s.sp := rfl
@[simp] theorem State.setFB_stack (fb : FrameBuffer) : (s.setFB fb).stack = s.stack := rfl
@[simp] theorem State.setFB_mem (fb : FrameBuffer) : (s.setFB fb).mem = s.mem := rfl
@[simp] theorem State.setFB_fb (fb : FrameBuffer) : (s.setFB fb).fb = fb := rfl
@[simp] theorem State.setFB_fault (fb : FrameBuffer) : (s.setFB fb).fault = s.fault := rfl
@[simp] theorem State.setFB_rng (fb : FrameBuffer) : (s.setFB fb).rng = s.rng := rfl
@[simp] theorem State.setFB_keys (fb : FrameBuffer) : (s.setFB fb).keys = s.keys := rfl
@[simp] theorem State.setFB_getV (fb : FrameBuffer) (y : Nibble) : (s.setFB fb).getV y = s.getV y := rfl

/-! ### drawRandom -/

@[simp] theorem State.drawRandom_v : (s.drawRandom).v = s.v := rfl
@[simp] theorem State.drawRandom_i : (s.drawRandom).i = s.i := rfl
@[simp] theorem State.drawRandom_pc : (s.drawRandom).pc = s.pc := rfl
@[simp] theorem State.drawRandom_dt : (s.drawRandom).dt = s.dt := rfl
@[simp] theorem State.drawRandom_st : (s.drawRandom).st = s.st := rfl
@[simp] theorem State.drawRandom_sp : (s.drawRandom).sp = s.sp := rfl
@[simp] theorem State.drawRandom_stack : (s.drawRandom).stack = s.stack := rfl
@[simp] theorem State.drawRandom_mem : (s.drawRandom).mem = s.mem := rfl
@[simp] theorem State.drawRandom_fb : (s.drawRandom).fb = s.fb := rfl
@[simp] theorem State.drawRandom_fault : (s.drawRandom).fault = s.fault := rfl
@[simp] theorem State.drawRandom_rng : (s.drawRandom).rng = { s.rng with drawn := s.rng.drawn + 1 } := rfl
@[simp] theorem State.drawRandom_keys : (s.drawRandom).keys = s.keys := rfl
@[simp] theorem State.drawRandom_getV (y : Nibble) : (s.drawRandom).getV y = s.getV y := rfl
@[simp] theorem State.drawRandom_pixel (r : Fin 32) (c : Fin 64) : (s.drawRandom).pixel r c = s.pixel r c := rfl

/-! ### raise -/

@[simp] theorem State.raise_v (k : FaultKind) (j : Instr) (n : Nat) : (s.raise k j n).v = s.v := rfl
@[simp] theorem State.raise_i (k : FaultKind) (j : Instr) (n : Nat) : (s.raise k j n).i = s.i := rfl
@[simp] theorem State.raise_pc (k : FaultKind) (j : Instr) (n : Nat) : (s.raise k j n).pc = s.pc := rfl
@[simp] theorem State.raise_dt (k : FaultKind) (j : Instr) (n : Nat) : (s.raise k j n).dt = s.dt := rfl
@[simp] theorem State.raise_st (k : FaultKind) (j : Instr) (n : Nat) : (s.raise k j n).st = s.st := rfl
@[simp] theorem State.raise_sp (k : FaultKind) (j : Instr) (n : Nat) : (s.raise k j n).sp = s.sp := rfl
@[simp] theorem State.raise_stack (k : FaultKind) (j : Instr) (n : Nat) : (s.raise k j n).stack = s.stack := rfl
@[simp] theorem State.raise_mem (k : FaultKind) (j : Instr) (n : Nat) : (s.raise k j n).mem = s.mem := rfl
@[simp] theorem State.raise_fb (k : FaultKind) (j : Instr) (n : Nat) : (s.raise k j n).fb = s.fb := rfl
@[simp] theorem State.raise_fault (k : FaultKind) (j : Instr) (n : Nat) : (s.raise k j n).fault = some { kind := k, addr := s.pc, opcode := encode j, info := n } := rfl
@[simp] theorem State.raise_rng (k : FaultKind) (j : Instr) (n : Nat) : (s.raise k j n).rng = s.rng := rfl
@[simp] theorem State.raise_keys (k : FaultKind) (j : Instr) (n : Nat) : (s.raise k j n).keys = s.keys := rfl
@[simp] theorem State.raise_getV (k : FaultKind) (j : Instr) (n : Nat) (y : Nibble) : (s.raise k j n).getV y = s.getV y := rfl
@[simp] theorem State.raise_pixel (k : FaultKind) (j : Instr) (n : Nat) (r : Fin 32) (c : Fin 64) : (s.raise k j n).pixel r c = s.pixel r c := rfl

/-! ### withKeys -/

@[simp] theorem State.withKeys_v (ks : BitVec 16) : (s.withKeys ks).v = s.v := rfl
@[simp] theorem State.withKeys_i (ks : BitVec 16) : (s.withKeys ks).i = s.i := rfl
@[simp] theorem State.withKeys_pc (ks : BitVec 16) : (s.withKeys ks).pc = s.pc := rfl
@[simp] theorem State.withKeys_dt (ks : BitVec 16) : (s.withKeys ks).dt = s.dt := rfl
@[simp] theorem State.withKeys_st (ks : BitVec 16) : (s.withKeys ks).st = s.st := rfl
@[simp] theorem State.withKeys_sp (ks : BitVec 16) : (s.withKeys ks).sp = s.sp := rfl
@[simp] theorem State.withKeys_stack (ks : BitVec 16) : (s.withKeys ks).stack = s.stack := rfl
@[simp] theorem State.withKeys_mem (ks : BitVec 16) : (s.withKeys ks).mem = s.mem := rfl
@[simp] theorem State.withKeys_fb (ks : BitVec 16) : (s.withKeys ks).fb = s.fb := rfl
@[simp] theorem State.withKeys_fault (ks : BitVec 16) : (s.withKeys ks).fault = s.fault := rfl
@[simp] theorem State.withKeys_rng (ks : BitVec 16) : (s.withKeys ks).rng = s.rng := rfl
@[simp] theorem State.withKeys_keys (ks : BitVec 16) : (s.withKeys ks).keys = ks := rfl
@[simp] theorem State.withKeys_getV (ks : BitVec 16) (y : Nibble) : (s.withKeys ks).getV y = s.getV y := rfl
@[simp] theorem State.withKeys_pixel (ks : BitVec 16) (r : Fin 32) (c : Fin 64) : (s.withKeys ks).pixel r c = s.pixel r c := rfl

/-! ### setFlagThenV -/

@[simp] theorem State.setFlagThenV_v (x : Nibble) (f b : Byte) : (s.setFlagThenV x f b).v = (s.v.set 15 f).set x.toNat b x.isLt := rfl
@[simp] theorem State.setFlagThenV_i (x : Nibble) (f b : Byte) : (s.setFlagThenV x f b).i = s.i := rfl
@[simp] theorem State.setFlagThenV_pc (x : Nibble) (f b : Byte) : (s.setFlagThenV x f b).pc = s.pc := rfl
@[simp] theorem State.setFlagThenV_dt (x : Nibble) (f b : Byte) : (s.setFlagThenV x f b).dt = s.dt := rfl
@[simp] theorem State.setFlagThenV_st (x : Nibble) (f b : Byte) : (s.setFlagThenV x f b).st = s.st := rfl
@[simp] theorem State.setFlagThenV_sp (x : Nibble) (f b : Byte) : (s.setFlagThenV x f b).sp = s.sp := rfl
@[simp] theorem State.setFlagThenV_stack (x : Nibble) (f b : Byte) : (s.setFlagThenV x f b).stack = s.stack := rfl
@[simp] theorem State.setFlagThenV_mem (x : Nibble) (f b : Byte) : (s.setFlagThenV x f b).mem = s.mem := rfl
@[simp] theorem State.setFlagThenV_fb (x : Nibble) (f b : Byte) : (s.setFlagThenV x f b).fb = s.fb := rfl
@[simp] theorem State.setFlagThenV_fault (x : Nibble) (f b : Byte) : (s.setFlagThenV x f b).fault = s.fault := rfl
@[simp] theorem State.setFlagThenV_rng (x : Nibble) (f b : Byte) : (s.setFlagThenV x f b).rng = s.rng := rfl
@[simp] theorem State.setFlagThenV_keys (x : Nibble) (f b : Byte) : (s.setFlagThenV x f b).keys = s.keys := rfl
@[simp] theorem State.setFlagThenV_pixel (x : Nibble) (f b : Byte) (r : Fin 32) (c : Fin 64) : (s.setFlagThenV x f b).pixel r c = s.pixel r c := rfl

/-! ### skipIf -/

@[simp] theorem State.skipIf_pc (c : Bool) : (s.skipIf c).pc = s.pc + (if c then 4 else 2) := by cases c <;> rfl
@[simp] theorem State.skipIf_v (c : Bool) : (s.skipIf c).v = s.v := by cases c <;> rfl
@[simp] theorem State.skipIf_i (c : Bool) : (s.skipIf c).i = s.i := by cases c <;> rfl
@[simp] theorem State.skipIf_dt (c : Bool) : (s.skipIf c).dt = s.dt := by cases c <;> rfl
@[simp] theorem State.skipIf_st (c : Bool) : (s.skipIf c).st = s.st := by cases c <;> rfl
@[simp] theorem State.skipIf_sp (c : Bool) : (s.skipIf c).sp = s.sp := by cases c <;> rfl
@[simp] theorem State.skipIf_stack (c : Bool) : (s.skipIf c).stack = s.stack := by cases c <;> rfl
@[simp] theorem State.skipIf_mem (c : Bool) : (s.skipIf c).mem = s.mem := by cases c <;> rfl
@[simp] theorem State.skipIf_fb (c : Bool) : (s.skipIf c).fb = s.fb := by cases c <;> rfl
@[simp] theorem State.skipIf_fault (c : Bool) : (s.skipIf c).fault = s.fault := by cases c <;> rfl
@[simp] theorem State.skipIf_rng (c : Bool) : (s.skipIf c).rng = s.rng := by cases c <;> rfl
@[simp] theorem State.skipIf_keys (c : Bool) : (s.skipIf c).keys = s.keys := by cases c <;> rfl
@[simp] theorem State.skipIf_getV (c : Bool) (y : Nibble) : (s.skipIf c).getV y = s.getV y := by cases c <;> rfl
@[simp] theorem State.skipIf_pixel (b : Bool) (r : Fin 32) (c : Fin 64) : (s.skipIf b).pixel r c = s.pixel r c := by
  cases b <;> rfl

/-! ### loadRegs -/

@[simp] theorem State.loadRegs_i (a n : Nat) : (s.loadRegs a n).i = s.i := by
  induction n with
  | zero => rfl
  | succ n ih => simpa [State.loadRegs] using ih
@[simp] theorem State.loadRegs_pc (a n : Nat) : (s.loadRegs a n).pc = s.pc := by
  induction n with
  | zero => rfl
  | succ n ih => simpa [State.loadRegs] using ih
@[simp] theorem State.loadRegs_dt (a n : Nat) : (s.loadRegs a n).dt = s.dt := by
  induction n with
  | zero => rfl
  | succ n ih => simpa [State.loadRegs] using ih
@[simp] theorem State.loadRegs_st (a n : Nat) : (s.loadRegs a n).st = s.st := by
  induction n with
  | zero => rfl
  | succ n ih => simpa [State.loadRegs] using ih
@[simp] theorem State.loadRegs_sp (a n : Nat) : (s.loadRegs a n).sp = s.sp := by
  induction n with
  | zero => rfl
  | succ n ih => simpa [State.loadRegs] using ih
@[simp] theorem State.loadRegs_stack (a n : Nat) : (s.loadRegs a n).stack = s.stack := by
  induction n with
  | zero => rfl
  | succ n ih => simpa [State.loadRegs] using ih
@[simp] theorem State.loadRegs_mem (a n : Nat) : (s.loadRegs a n).mem = s.mem := by
  induction n with
  | zero => rfl
  | succ n ih => simpa [State.loadRegs] using ih
@[simp] theorem State.loadRegs_fb (a n : Nat) : (s.loadRegs a n).fb = s.fb := by
  induction n with
  | zero => rfl
  | succ n ih => simpa [State.loadRegs] using ih
@[simp] theorem State.loadRegs_fault (a n : Nat) : (s.loadRegs a n).fault = s.fault := by
  induction n with
  | zero => rfl
  | succ n ih => simpa [State.loadRegs] using ih
@[simp] theorem State.loadRegs_rng (a n : Nat) : (s.loadRegs a n).rng = s.rng := by
  induction n with
  | zero => rfl
  | succ n ih => simpa [State.loadRegs] using ih
@[simp] theorem State.loadRegs_keys (a n : Nat) : (s.loadRegs a n).keys = s.keys := by
  induction n with
  | zero => rfl
  | succ n ih => simpa [State.loadRegs] using ih
@[simp] theorem State.loadRegs_pixel (a n : Nat) (r : Fin 32) (c : Fin 64) :
    (s.loadRegs a n).pixel r c = s.pixel r c := by simp [State.pixel]

/-! ### Reads of what an update writes -/

@[simp] theorem State.setFB_pixel (fb : FrameBuffer) (r : Fin 32) (c : Fin 64) :
    (s.setFB fb).pixel r c = fb.pixel r c := rfl

@[simp] theorem State.setV_getV (x : Nibble) (b : Byte) (y : Nibble) :
    (s.setV x b).getV y = if y = x then b else s.getV y := by
  simp only [State.getV, State.setV, Vector.getElem_set, ← BitVec.toNat_inj, eq_comm]

@[simp] theorem State.setFlagThenV_getV (x : Nibble) (f b : Byte) (y : Nibble) :
    (s.setFlagThenV x f b).getV y = if y = x then b else if y = regVF then f else s.getV y := by
  simp [State.setFlagThenV]

end Sys2Proof.Machine
end

