-- ==== Sys2Proof/Laws/Ops.lean ====
section
/-! SUPPORT. What each shared operation can do, said once: stack, data accesses, framebuffer, register loads, settling
a step, the fetch guard and the step itself. -/

namespace Sys2Proof.Machine

variable (s : State)

/-! ## Call stack -/

/-- Push succeeds exactly below depth 16, and this is what it does. -/
theorem State.push_eq_some {v : Word} {t : State} :
    s.push v = some t ↔
      ∃ h : s.sp.val < 16, t = { s with stack := s.stack.set s.sp.val v h, sp := ⟨s.sp.val + 1, by omega⟩ } := by
  unfold State.push
  split <;> simp_all [eq_comm]

/-- Push fails exactly at depth 16. -/
theorem State.push_eq_none {v : Word} : s.push v = none ↔ s.sp.val = 16 := by
  have := s.sp.isLt
  unfold State.push
  split <;> simp <;> omega

/-- Pop succeeds exactly on a stack that is not empty, and this is what it does. -/
theorem State.pop_eq_some {w : Word} {t : State} :
    s.pop = some (w, t) ↔
      ∃ h : s.sp.val - 1 < 16, s.sp.val ≠ 0 ∧ w = s.stack[s.sp.val - 1] ∧ t = { s with sp := ⟨s.sp.val - 1, by omega⟩ } := by
  have := s.sp.isLt
  unfold State.pop
  split
  · simp_all
  · constructor
    · intro h
      simp only [Option.some.injEq, Prod.mk.injEq] at h
      exact ⟨by omega, by assumption, h.1.symm, h.2.symm⟩
    · rintro ⟨-, -, rfl, rfl⟩; rfl

/-- Pop fails exactly on the empty stack. -/
theorem State.pop_eq_none : s.pop = none ↔ s.sp.val = 0 := by
  unfold State.pop
  split <;> simp_all

/-! ## Data accesses -/

/-- The bounds check in one inequality: some byte is accessed, and the last lies at 4096 or beyond. -/
theorem State.outOfBounds_iff (n : Nat) : s.outOfBounds n = true ↔ 1 ≤ n ∧ 4096 < s.i.toNat + n := by
  simp only [State.outOfBounds, Bool.and_eq_true, decide_eq_true_eq]
  simp only [State.dataAddr, Config.memSize]
  constructor <;> rintro ⟨h1, h2⟩ <;> refine ⟨h1, ?_⟩ <;> omega

/-- An instruction that accesses memory either faults on its bounds and writes only the latch, or runs its body. -/
theorem withData_cases {i : Instr} {body : State → State} {t : State} (h : withData i body s = .next t) :
    (s.outOfBounds (dataBytes i) = true ∧ t = s.raise .outOfBoundsMemoryAccess i s.firstOutOfBounds) ∨
      (s.outOfBounds (dataBytes i) = false ∧ t = body s) := by
  unfold withData at h
  split at h
  · exact .inl ⟨by assumption, (Host.Outcome.next.inj h).symm⟩
  · exact .inr ⟨Bool.eq_false_iff.mpr (by assumption), (Host.Outcome.next.inj h).symm⟩

theorem withData_inBounds {i : Instr} {body : State → State} (h : s.outOfBounds (dataBytes i) = false) :
    withData i body s = .next (body s) := by simp [withData, h]

theorem withData_outOfBounds {i : Instr} {body : State → State} (h : s.outOfBounds (dataBytes i) = true) :
    withData i body s = .next (s.raise .outOfBoundsMemoryAccess i s.firstOutOfBounds) := by simp [withData, h]

/-! ## Register loads -/

/-- A load of `n` registers writes `V[0]`..`V[n-1]` from ascending addresses and no other register. -/
theorem State.loadRegs_getV (base : Nat) {n : Nat} (hn : n ≤ 16) (x : Nibble) :
    (s.loadRegs base n).getV x = if x.toNat < n then s.mem.read (base + x.toNat) else s.getV x := by
  induction n with
  | zero => simp [State.loadRegs]
  | succ n ih =>
    have hx : x = BitVec.ofNat 4 n ↔ x.toNat = n := by
      rw [← BitVec.toNat_inj, BitVec.toNat_ofNat, Nat.mod_eq_of_lt (by omega)]
    rw [State.loadRegs, State.setV_getV, ih (by omega)]
    by_cases h : x.toNat = n
    · simp [hx, h]
    · have : x.toNat < n + 1 ↔ x.toNat < n := by omega
      simp [hx, h, this]

/-! ## Framebuffer -/

@[simp] theorem FrameBuffer.pixel_off (r : Fin 32) (c : Fin 64) : FrameBuffer.off.pixel r c = false := by
  simp [FrameBuffer.off, FrameBuffer.pixel]

/-- Turning a pixel on turns on that pixel and no other. -/
theorem FrameBuffer.pixel_turnOn (fb : FrameBuffer) (r r' : Fin 32) (c c' : Fin 64) :
    (fb.turnOn r c).pixel r' c' = (fb.pixel r' c' || (r' == r && c' == c)) := by
  simp only [FrameBuffer.turnOn, FrameBuffer.pixel, Vector.getElem_set]
  by_cases hr : r = r'
  · subst hr
    by_cases hc : c = c'
    · subst hc; simp
    · simp [Fin.val_ne_of_ne hc, Ne.symm hc]
  · simp [Fin.val_ne_of_ne hr, Ne.symm hr]

/-- One sprite bit: the pixel it addresses is turned on where the bit is 1, and nothing else changes. -/
theorem drawBit_pixel (x0 y0 b : Byte) (i j : Nat) (cv : Canvas) (r : Fin 32) (c : Fin 64) :
    (drawBit x0 y0 b i j cv).fb.pixel r c = (cv.fb.pixel r c ||
      (b.getLsbD (7 - j) && r == Fin.ofNat 32 (y0.toNat + i) && c == Fin.ofNat 64 (x0.toNat + j))) := by
  unfold drawBit
  split <;> simp_all [FrameBuffer.pixel_turnOn]

/-- One sprite bit: the collision is flagged where the bit is 1 and its pixel was on. -/
theorem drawBit_hit (x0 y0 b : Byte) (i j : Nat) (cv : Canvas) :
    (drawBit x0 y0 b i j cv).hit = (cv.hit ||
      (b.getLsbD (7 - j) && cv.fb.pixel (Fin.ofNat 32 (y0.toNat + i)) (Fin.ofNat 64 (x0.toNat + j)))) := by
  unfold drawBit
  split <;> simp_all

/-! ## The step -/

/-- The guarded fetch address leaves room for both bytes of an instruction. -/
theorem fetchAddr_le (pc : Word) : (fetchAddr pc).toNat ≤ 4094 := by
  unfold fetchAddr
  split
  · decide
  · omega

/-- Settling keeps what the instruction left, or, where it took a fault, everything from before but the latch. -/
theorem State.settle_cases (t : State) :
    (t.fault = none ∧ s.settle t = t) ∨ (∃ r, t.fault = some r ∧ s.settle t = { s with fault := some r }) := by
  unfold State.settle State.halted
  cases h : t.fault <;> simp

/-- What a step can do: nothing on a halted core, else the fetched instruction's effect, settled. -/
theorem step_cases {s t : State} (h : step s = .next t) :
    (∃ r, s.fault = some r ∧ t = s) ∨
      (s.fault = none ∧ ∃ u, exec s.fetchInstr s.atFetch = .next u ∧ t = s.settle u) := by
  unfold step State.halted at h
  cases hf : s.fault with
  | some r =>
    simp only [hf, Option.isSome_some, if_true] at h
    exact .inl ⟨r, rfl, (Host.Outcome.next.inj h).symm⟩
  | none =>
    simp only [hf, Option.isSome_none, Bool.false_eq_true, if_false] at h
    split at h
    · exact .inr ⟨rfl, _, by assumption, (Host.Outcome.next.inj h).symm⟩
    all_goals cases h

end Sys2Proof.Machine
end

