-- ==== Sys2Proof/Laws/Draw.lean ====
section
/-! SUPPORT. What the drawing loop does (spec/44_display.md R151, R152): the pixels it turns on and the collision it
flags. No pixel is visited twice, so a collision means a pixel on before the loop. -/

namespace Sys2Proof.Machine

/-- The row a sprite row lands on, and the column a sprite bit lands on. -/
abbrev rowOf (y0 : Byte) (i : Nat) : Fin 32 := Fin.ofNat 32 (y0.toNat + i)
@[inherit_doc rowOf] abbrev colOf (x0 : Byte) (j : Nat) : Fin 64 := Fin.ofNat 64 (x0.toNat + j)

theorem colOf_ne (x0 : Byte) {j k : Nat} (h : j < k) (hk : k < 8) : colOf x0 j ≠ colOf x0 k := by
  intro e
  have := congrArg Fin.val e
  simp only [colOf, Fin.val_ofNat] at this
  omega

theorem rowOf_ne (y0 : Byte) {i k : Nat} (h : i < k) (hk : k < 16) : rowOf y0 i ≠ rowOf y0 k := by
  intro e
  have := congrArg Fin.val e
  simp only [rowOf, Fin.val_ofNat] at this
  omega

/-- The pixels on after the first `n` bits of a row. -/
theorem drawBits_pixel (x0 y0 b : Byte) (i n : Nat) (cv : Canvas) (r : Fin 32) (c : Fin 64) :
    (drawBits x0 y0 b i n cv).fb.pixel r c = true ↔ cv.fb.pixel r c = true ∨
      ∃ j, j < n ∧ b.getLsbD (7 - j) = true ∧ r = rowOf y0 i ∧ c = colOf x0 j := by
  induction n with
  | zero => simp [drawBits]
  | succ n ih =>
    rw [drawBits, drawBit_pixel, Bool.or_eq_true, ih, or_assoc]
    refine or_congr_right ?_
    simp only [Bool.and_eq_true, beq_iff_eq]
    constructor
    · rintro (⟨j, hj, h⟩ | ⟨⟨hb, hr⟩, hc⟩)
      · exact ⟨j, by omega, h⟩
      · exact ⟨n, by omega, hb, hr, hc⟩
    · rintro ⟨j, hj, hb, hr, hc⟩
      rcases Nat.lt_succ_iff_lt_or_eq.mp hj with hj | rfl
      · exact .inl ⟨j, hj, hb, hr, hc⟩
      · exact .inr ⟨⟨hb, hr⟩, hc⟩

/-- The collision flag after the first `n` bits of a row: one of the 1 bits landed on a pixel on before the row. -/
theorem drawBits_hit (x0 y0 b : Byte) (i : Nat) {n : Nat} (hn : n ≤ 8) (cv : Canvas) :
    (drawBits x0 y0 b i n cv).hit = true ↔ cv.hit = true ∨
      ∃ j, j < n ∧ b.getLsbD (7 - j) = true ∧ cv.fb.pixel (rowOf y0 i) (colOf x0 j) = true := by
  induction n with
  | zero => simp [drawBits]
  | succ n ih =>
    have fresh : (drawBits x0 y0 b i n cv).fb.pixel (rowOf y0 i) (colOf x0 n) = true ↔
        cv.fb.pixel (rowOf y0 i) (colOf x0 n) = true := by
      rw [drawBits_pixel]
      refine or_iff_left ?_
      rintro ⟨j, hj, -, -, hc⟩
      exact colOf_ne x0 hj (by omega) hc.symm
    rw [drawBits, drawBit_hit, Bool.or_eq_true, ih (by omega), or_assoc]
    refine or_congr_right ?_
    rw [Bool.and_eq_true, fresh]
    constructor
    · rintro (⟨j, hj, h⟩ | h)
      · exact ⟨j, by omega, h⟩
      · exact ⟨n, by omega, h⟩
    · rintro ⟨j, hj, h⟩
      rcases Nat.lt_succ_iff_lt_or_eq.mp hj with hj | rfl
      · exact .inl ⟨j, hj, h⟩
      · exact .inr h

/-- The pixels on after the first `n` rows of a sprite. -/
theorem drawRows_pixel (x0 y0 : Byte) (row : Nat → Byte) (n : Nat) (cv : Canvas) (r : Fin 32) (c : Fin 64) :
    (drawRows x0 y0 row n cv).fb.pixel r c = true ↔ cv.fb.pixel r c = true ∨
      ∃ i j, i < n ∧ j < 8 ∧ (row i).getLsbD (7 - j) = true ∧ r = rowOf y0 i ∧ c = colOf x0 j := by
  induction n with
  | zero => simp [drawRows]
  | succ n ih =>
    rw [drawRows, drawBits_pixel, ih, or_assoc]
    refine or_congr_right ?_
    constructor
    · rintro (⟨i, j, hi, h⟩ | ⟨j, h⟩)
      · exact ⟨i, j, by omega, h⟩
      · exact ⟨n, j, by omega, h⟩
    · rintro ⟨i, j, hi, h⟩
      rcases Nat.lt_succ_iff_lt_or_eq.mp hi with hi | rfl
      · exact .inl ⟨i, j, hi, h⟩
      · exact .inr ⟨j, h⟩

/-- The collision flag after the first `n` rows: one of the 1 bits landed on a pixel on before the sprite. -/
theorem drawRows_hit (x0 y0 : Byte) (row : Nat → Byte) {n : Nat} (hn : n ≤ 16) (cv : Canvas) :
    (drawRows x0 y0 row n cv).hit = true ↔ cv.hit = true ∨
      ∃ i j, i < n ∧ j < 8 ∧ (row i).getLsbD (7 - j) = true ∧ cv.fb.pixel (rowOf y0 i) (colOf x0 j) = true := by
  induction n with
  | zero => simp [drawRows]
  | succ n ih =>
    have fresh : ∀ c, (drawRows x0 y0 row n cv).fb.pixel (rowOf y0 n) c = true ↔
        cv.fb.pixel (rowOf y0 n) c = true := by
      intro c
      rw [drawRows_pixel]
      refine or_iff_left ?_
      rintro ⟨i, j, hi, -, -, hr, -⟩
      exact rowOf_ne y0 hi (by omega) hr.symm
    rw [drawRows, drawBits_hit _ _ _ _ le_rfl, ih (by omega), or_assoc]
    refine or_congr_right ?_
    simp only [fresh]
    constructor
    · rintro (⟨i, j, hi, h⟩ | ⟨j, h⟩)
      · exact ⟨i, j, by omega, h⟩
      · exact ⟨n, j, by omega, h⟩
    · rintro ⟨i, j, hi, h⟩
      rcases Nat.lt_succ_iff_lt_or_eq.mp hi with hi | rfl
      · exact .inl ⟨i, j, hi, h⟩
      · exact .inr ⟨j, h⟩

end Sys2Proof.Machine
end

