-- ==== Sys2Proof/Laws/Encoding.lean ====
section
/-! SUPPORT. The fields of an encoded word in each format (spec/30_encoding.md R81, R82), and what the four masks of the
opcode map test (R85). -/

namespace Sys2Proof

/-! ## Words as numbers -/

theorem encodeA_toNat (g : Nibble) (nnn : Addr12) : (encodeA g nnn).toNat = g.toNat * 4096 + nnn.toNat := by
  have := nnn.isLt
  simp only [encodeA, BitVec.toNat_append]
  rw [← Nat.shiftLeft_add_eq_or_of_lt (by omega), Nat.shiftLeft_eq]

theorem encodeXI_toNat (g x : Nibble) (nn : Byte) :
    (encodeXI g x nn).toNat = g.toNat * 4096 + x.toNat * 256 + nn.toNat := by
  have := nn.isLt
  have := x.isLt
  simp only [encodeXI, BitVec.toNat_append]
  rw [← Nat.shiftLeft_add_eq_or_of_lt (by omega), ← Nat.shiftLeft_add_eq_or_of_lt (by omega), Nat.shiftLeft_eq,
    Nat.shiftLeft_eq]
  omega

theorem encodeXY_toNat (g x y n : Nibble) :
    (encodeXY g x y n).toNat = g.toNat * 4096 + x.toNat * 256 + y.toNat * 16 + n.toNat := by
  have := n.isLt
  have := y.isLt
  have := x.isLt
  simp only [encodeXY, BitVec.toNat_append]
  rw [← Nat.shiftLeft_add_eq_or_of_lt (by omega), ← Nat.shiftLeft_add_eq_or_of_lt (by omega),
    ← Nat.shiftLeft_add_eq_or_of_lt (by omega), Nat.shiftLeft_eq, Nat.shiftLeft_eq, Nat.shiftLeft_eq]
  omega

theorem fieldG_toNat (w : Word) : (fieldG w).toNat = w.toNat / 4096 := by
  have := w.isLt
  simp only [fieldG, BitVec.extractLsb'_toNat, Nat.shiftRight_eq_div_pow]; omega

theorem fieldX_toNat (w : Word) : (fieldX w).toNat = w.toNat / 256 % 16 := by
  simp [fieldX, BitVec.extractLsb'_toNat, Nat.shiftRight_eq_div_pow]

theorem fieldY_toNat (w : Word) : (fieldY w).toNat = w.toNat / 16 % 16 := by
  simp [fieldY, BitVec.extractLsb'_toNat, Nat.shiftRight_eq_div_pow]

theorem fieldN_toNat (w : Word) : (fieldN w).toNat = w.toNat % 16 := by
  simp [fieldN, BitVec.extractLsb'_toNat]

theorem fieldNN_toNat (w : Word) : (fieldNN w).toNat = w.toNat % 256 := by
  simp [fieldNN, BitVec.extractLsb'_toNat]

theorem fieldNNN_toNat (w : Word) : (fieldNNN w).toNat = w.toNat % 4096 := by
  simp [fieldNNN, BitVec.extractLsb'_toNat]

/-! ## Fields of an encoded word -/

section
variable (g x y n : Nibble) (nn : Byte) (nnn : Addr12)

@[simp] theorem fieldG_encodeA : fieldG (encodeA g nnn) = g := by
  apply BitVec.eq_of_toNat_eq; have := nnn.isLt; rw [fieldG_toNat, encodeA_toNat]; omega

@[simp] theorem fieldNNN_encodeA : fieldNNN (encodeA g nnn) = nnn := by
  apply BitVec.eq_of_toNat_eq; have := nnn.isLt; rw [fieldNNN_toNat, encodeA_toNat]; omega

@[simp] theorem fieldG_encodeXI : fieldG (encodeXI g x nn) = g := by
  apply BitVec.eq_of_toNat_eq; have := nn.isLt; have := x.isLt; rw [fieldG_toNat, encodeXI_toNat]; omega

@[simp] theorem fieldX_encodeXI : fieldX (encodeXI g x nn) = x := by
  apply BitVec.eq_of_toNat_eq; have := nn.isLt; have := x.isLt; rw [fieldX_toNat, encodeXI_toNat]; omega

@[simp] theorem fieldNN_encodeXI : fieldNN (encodeXI g x nn) = nn := by
  apply BitVec.eq_of_toNat_eq; have := nn.isLt; rw [fieldNN_toNat, encodeXI_toNat]; omega

@[simp] theorem fieldG_encodeXY : fieldG (encodeXY g x y n) = g := by
  apply BitVec.eq_of_toNat_eq; have := n.isLt; have := y.isLt; have := x.isLt
  rw [fieldG_toNat, encodeXY_toNat]; omega

@[simp] theorem fieldX_encodeXY : fieldX (encodeXY g x y n) = x := by
  apply BitVec.eq_of_toNat_eq; have := n.isLt; have := y.isLt; have := x.isLt
  rw [fieldX_toNat, encodeXY_toNat]; omega

@[simp] theorem fieldY_encodeXY : fieldY (encodeXY g x y n) = y := by
  apply BitVec.eq_of_toNat_eq; have := n.isLt; have := y.isLt; have := x.isLt
  rw [fieldY_toNat, encodeXY_toNat]; omega

@[simp] theorem fieldN_encodeXY : fieldN (encodeXY g x y n) = n := by
  apply BitVec.eq_of_toNat_eq; have := n.isLt; have := y.isLt; have := x.isLt
  rw [fieldN_toNat, encodeXY_toNat]; omega

end

/-! ## A word from its fields -/

theorem encodeA_fields (w : Word) : encodeA (fieldG w) (fieldNNN w) = w := by
  apply BitVec.eq_of_toNat_eq
  rw [encodeA_toNat, fieldG_toNat, fieldNNN_toNat]; omega

theorem encodeXI_fields (w : Word) : encodeXI (fieldG w) (fieldX w) (fieldNN w) = w := by
  apply BitVec.eq_of_toNat_eq
  rw [encodeXI_toNat, fieldG_toNat, fieldX_toNat, fieldNN_toNat]; omega

theorem encodeXY_fields (w : Word) : encodeXY (fieldG w) (fieldX w) (fieldY w) (fieldN w) = w := by
  apply BitVec.eq_of_toNat_eq
  rw [encodeXY_toNat, fieldG_toNat, fieldX_toNat, fieldY_toNat, fieldN_toNat]; omega

/-! ## The encodings as the instruction rules write them -/

/-- Format A: `match | NNN`. -/
theorem encodeA_or (g : Nibble) (nnn : Addr12) : encodeA g 0 ||| nnn.setWidth 16 = encodeA g nnn := by
  refine BitVec.eq_of_getLsbD_eq fun i hi => ?_
  simp only [encodeA, BitVec.getLsbD_or, BitVec.getLsbD_append, BitVec.getLsbD_setWidth]
  interval_cases i <;> simp

/-- Format XI: `match | X << 8 | NN`. -/
theorem encodeXI_or (g x : Nibble) (nn : Byte) :
    encodeXI g 0 0 ||| x.setWidth 16 <<< 8 ||| nn.setWidth 16 = encodeXI g x nn := by
  refine BitVec.eq_of_getLsbD_eq fun i hi => ?_
  simp only [encodeXI, BitVec.getLsbD_or, BitVec.getLsbD_append, BitVec.getLsbD_setWidth, BitVec.getLsbD_shiftLeft]
  interval_cases i <;> simp

/-- Format XF: `match | X << 8`. -/
theorem encodeXF_or (g x : Nibble) (nn : Byte) :
    encodeXI g 0 nn ||| x.setWidth 16 <<< 8 = encodeXI g x nn := by
  refine BitVec.eq_of_getLsbD_eq fun i hi => ?_
  simp only [encodeXI, BitVec.getLsbD_or, BitVec.getLsbD_append, BitVec.getLsbD_setWidth, BitVec.getLsbD_shiftLeft]
  interval_cases i <;> simp

/-- Format XY: `match | X << 8 | Y << 4`. -/
theorem encodeXY_or (g x y n : Nibble) :
    encodeXY g 0 0 n ||| x.setWidth 16 <<< 8 ||| y.setWidth 16 <<< 4 = encodeXY g x y n := by
  refine BitVec.eq_of_getLsbD_eq fun i hi => ?_
  simp only [encodeXY, BitVec.getLsbD_or, BitVec.getLsbD_append, BitVec.getLsbD_setWidth, BitVec.getLsbD_shiftLeft]
  interval_cases i <;> simp

/-- Format XYN: `match | X << 8 | Y << 4 | N`. -/
theorem encodeXYN_or (g x y n : Nibble) :
    encodeXY g 0 0 0 ||| x.setWidth 16 <<< 8 ||| y.setWidth 16 <<< 4 ||| n.setWidth 16 = encodeXY g x y n := by
  refine BitVec.eq_of_getLsbD_eq fun i hi => ?_
  simp only [encodeXY, BitVec.getLsbD_or, BitVec.getLsbD_append, BitVec.getLsbD_setWidth, BitVec.getLsbD_shiftLeft]
  interval_cases i <;> simp

/-! ## The masks of the opcode map -/

/-- Mask 0xF000 keeps the group. -/
theorem mask_group (w : Word) : w &&& 0xF000#16 = encodeA (fieldG w) 0 := by
  have h : ∀ i < 16, (w &&& 0xF000#16).getLsbD i = (encodeA (fieldG w) 0).getLsbD i := by
    intro i hi; simp only [encodeA, fieldG, BitVec.getLsbD_append, BitVec.getLsbD_and, BitVec.getLsbD_extractLsb']
    interval_cases i <;> simp
  exact BitVec.eq_of_getLsbD_eq h

/-- Mask 0xF00F keeps the group and the low nibble. -/
theorem mask_group_n (w : Word) : w &&& 0xF00F#16 = encodeXY (fieldG w) 0 0 (fieldN w) := by
  have h : ∀ i < 16, (w &&& 0xF00F#16).getLsbD i = (encodeXY (fieldG w) 0 0 (fieldN w)).getLsbD i := by
    intro i hi; simp only [encodeXY, fieldG, fieldN, BitVec.getLsbD_append, BitVec.getLsbD_and, BitVec.getLsbD_extractLsb']
    interval_cases i <;> simp
  exact BitVec.eq_of_getLsbD_eq h

/-- Mask 0xF0FF keeps the group and the low byte. -/
theorem mask_group_nn (w : Word) : w &&& 0xF0FF#16 = encodeXI (fieldG w) 0 (fieldNN w) := by
  have h : ∀ i < 16, (w &&& 0xF0FF#16).getLsbD i = (encodeXI (fieldG w) 0 (fieldNN w)).getLsbD i := by
    intro i hi; simp only [encodeXI, fieldG, fieldNN, BitVec.getLsbD_append, BitVec.getLsbD_and, BitVec.getLsbD_extractLsb']
    interval_cases i <;> simp
  exact BitVec.eq_of_getLsbD_eq h

/-- Mask 0xFFFF keeps the word. -/
theorem mask_whole (w : Word) : w &&& 0xFFFF#16 = w := by
  have h : (0xFFFF#16 : Word) = BitVec.allOnes 16 := by decide
  rw [h, BitVec.and_allOnes]

/-! ## The sub-dispatches as chains of conditions -/

theorem decodeE_eq (w : Word) : decodeE w =
    if fieldNN w = 0x9E#8 then .skp (fieldX w) else if fieldNN w = 0xA1#8 then .sknp (fieldX w) else .nop w := by
  unfold decodeE; split <;> simp_all

theorem decodeF_eq (w : Word) : decodeF w =
    if fieldNN w = 0x15#8 then .ldDT (fieldX w) else if fieldNN w = 0x1E#8 then .addI (fieldX w)
    else if fieldNN w = 0x29#8 then .ldF (fieldX w) else if fieldNN w = 0x33#8 then .ldB (fieldX w)
    else if fieldNN w = 0x55#8 then .stRegs (fieldX w) else if fieldNN w = 0x65#8 then .ldRegs (fieldX w)
    else .nop w := by
  unfold decodeF; split <;> simp_all

/-- The sixteen values of a nibble. -/
theorem nibble_cases (g : Nibble) : g = 0#4 ∨ g = 1#4 ∨ g = 2#4 ∨ g = 3#4 ∨ g = 4#4 ∨ g = 5#4 ∨ g = 6#4 ∨ g = 7#4 ∨
    g = 8#4 ∨ g = 9#4 ∨ g = 10#4 ∨ g = 11#4 ∨ g = 12#4 ∨ g = 13#4 ∨ g = 14#4 ∨ g = 15#4 := by
  revert g; decide

/-! ## The unrecognized space, by fields -/

/-- `unrecognized` read by fields. -/
theorem unrecognized_eq (w : Word) : unrecognized w =
    match fieldG w with
    | 0x0#4 => w != 0x00E0#16 && w != 0x00EE#16
    | 0x5#4 => fieldN w != 0x0#4
    | 0x8#4 => [0x8#4, 0x9#4, 0xA#4, 0xB#4, 0xC#4, 0xD#4, 0xF#4].contains (fieldN w)
    | 0x9#4 => fieldN w != 0x0#4
    | 0xE#4 => fieldNN w != 0x9E#8 && fieldNN w != 0xA1#8
    | 0xF#4 => !([0x15#8, 0x1E#8, 0x29#8, 0x33#8, 0x55#8, 0x65#8].contains (fieldNN w))
    | _ => false := rfl

/-- An opcode outside group 0 is neither of the two that are matched on all bits. -/
theorem ne_exact {w : Word} (h : fieldG w ≠ 0) : w ≠ 0x00E0#16 ∧ w ≠ 0x00EE#16 :=
  ⟨fun e => h (by subst e; decide), fun e => h (by subst e; decide)⟩

/-! ## The rows of the opcode map, by fields -/

/-- A row of format A tests the group. -/
theorem row_A (w : Word) (g : Nibble) : (w &&& 0xF000#16 == encodeA g 0) = (fieldG w == g) := by
  rw [mask_group, Bool.eq_iff_iff, beq_iff_eq, beq_iff_eq]
  exact ⟨fun h => by simpa using congrArg fieldG h, fun h => by rw [h]⟩

/-- A row of format XY tests the group and the low nibble. -/
theorem row_XY (w : Word) (g n : Nibble) :
    (w &&& 0xF00F#16 == encodeXY g 0 0 n) = (fieldG w == g && fieldN w == n) := by
  rw [mask_group_n, Bool.eq_iff_iff, Bool.and_eq_true, beq_iff_eq, beq_iff_eq, beq_iff_eq]
  exact ⟨fun h => ⟨by simpa using congrArg fieldG h, by simpa using congrArg fieldN h⟩, fun h => by rw [h.1, h.2]⟩

/-- A row of format XF tests the group and the low byte. -/
theorem row_XF (w : Word) (g : Nibble) (nn : Byte) :
    (w &&& 0xF0FF#16 == encodeXI g 0 nn) = (fieldG w == g && fieldNN w == nn) := by
  rw [mask_group_nn, Bool.eq_iff_iff, Bool.and_eq_true, beq_iff_eq, beq_iff_eq, beq_iff_eq]
  exact ⟨fun h => ⟨by simpa using congrArg fieldG h, by simpa using congrArg fieldNN h⟩, fun h => by rw [h.1, h.2]⟩

/-- The opcode map read by fields: the group, then the low nibble or the low byte, then the whole word. -/
theorem selectedRule_eq (w : Word) : selectedRule w =
    if w = 0x00E0#16 then 150 else if w = 0x00EE#16 then 100
    else if fieldG w = 1#4 then 101 else if fieldG w = 2#4 then 102 else if fieldG w = 3#4 then 110
    else if fieldG w = 4#4 then 111 else if fieldG w = 5#4 ∧ fieldN w = 0#4 then 112
    else if fieldG w = 6#4 then 120 else if fieldG w = 7#4 then 121
    else if fieldG w = 8#4 ∧ fieldN w = 0#4 then 122 else if fieldG w = 8#4 ∧ fieldN w = 1#4 then 123
    else if fieldG w = 8#4 ∧ fieldN w = 2#4 then 124 else if fieldG w = 8#4 ∧ fieldN w = 3#4 then 125
    else if fieldG w = 8#4 ∧ fieldN w = 4#4 then 126 else if fieldG w = 8#4 ∧ fieldN w = 5#4 then 127
    else if fieldG w = 8#4 ∧ fieldN w = 6#4 then 128 else if fieldG w = 8#4 ∧ fieldN w = 7#4 then 129
    else if fieldG w = 8#4 ∧ fieldN w = 14#4 then 130 else if fieldG w = 9#4 ∧ fieldN w = 0#4 then 113
    else if fieldG w = 10#4 then 140 else if fieldG w = 11#4 then 103 else if fieldG w = 12#4 then 131
    else if fieldG w = 13#4 then 151
    else if fieldG w = 14#4 ∧ fieldNN w = 0x9E#8 then 160 else if fieldG w = 14#4 ∧ fieldNN w = 0xA1#8 then 161
    else if fieldG w = 15#4 ∧ fieldNN w = 0x15#8 then 162 else if fieldG w = 15#4 ∧ fieldNN w = 0x1E#8 then 141
    else if fieldG w = 15#4 ∧ fieldNN w = 0x29#8 then 142 else if fieldG w = 15#4 ∧ fieldNN w = 0x33#8 then 143
    else if fieldG w = 15#4 ∧ fieldNN w = 0x55#8 then 144 else if fieldG w = 15#4 ∧ fieldNN w = 0x65#8 then 145
    else 104 := by
  have A : ∀ (m : Word) (g : Nibble), m = encodeA g 0 → (w &&& 0xF000#16 == m) = (fieldG w == g) := by
    rintro _ g rfl; exact row_A w g
  have XY : ∀ (m : Word) (g n : Nibble), m = encodeXY g 0 0 n →
      (w &&& 0xF00F#16 == m) = (fieldG w == g && fieldN w == n) := by rintro _ g n rfl; exact row_XY w g n
  have XF : ∀ (m : Word) (g : Nibble) (nn : Byte), m = encodeXI g 0 nn →
      (w &&& 0xF0FF#16 == m) = (fieldG w == g && fieldNN w == nn) := by rintro _ g nn rfl; exact row_XF w g nn
  simp only [selectedRule, opcodeMap, ruleOfRows, OpcodeRow.selects, List.cons_append, List.nil_append,
    mask_whole, A 0x1000#16 1#4 rfl, A 0x2000#16 2#4 rfl, A 0x3000#16 3#4 rfl, A 0x4000#16 4#4 rfl, A 0x6000#16 6#4 rfl,
    A 0x7000#16 7#4 rfl, A 0xA000#16 10#4 rfl, A 0xB000#16 11#4 rfl, A 0xC000#16 12#4 rfl, A 0xD000#16 13#4 rfl,
    XY 0x5000#16 5#4 0#4 rfl, XY 0x8000#16 8#4 0#4 rfl, XY 0x8001#16 8#4 1#4 rfl, XY 0x8002#16 8#4 2#4 rfl, XY 0x8003#16 8#4 3#4 rfl,
    XY 0x8004#16 8#4 4#4 rfl, XY 0x8005#16 8#4 5#4 rfl, XY 0x8006#16 8#4 6#4 rfl, XY 0x8007#16 8#4 7#4 rfl, XY 0x800E#16 8#4 14#4 rfl,
    XY 0x9000#16 9#4 0#4 rfl, XF 0xE09E#16 14#4 0x9E#8 rfl, XF 0xE0A1#16 14#4 0xA1#8 rfl, XF 0xF015#16 15#4 0x15#8 rfl,
    XF 0xF01E#16 15#4 0x1E#8 rfl, XF 0xF029#16 15#4 0x29#8 rfl, XF 0xF033#16 15#4 0x33#8 rfl, XF 0xF055#16 15#4 0x55#8 rfl,
    XF 0xF065#16 15#4 0x65#8 rfl, Bool.and_eq_true, beq_iff_eq]

end Sys2Proof
end

