-- ==== Sys2Proof/Laws/Memory.lean ====
section
/-! SUPPORT. The laws of main memory: a read after a write, and every write keeps the canonical form. -/

namespace Sys2Proof.Machine

theorem Memory.read_of_lt {m : Memory} {a : Nat} (h : ∀ c ∈ m, a < c.1) : m.read a = Memory.unlisted := by
  induction m with
  | nil => rfl
  | cons c rest ih =>
    have hc : a < c.1 := h c (by simp)
    have : c.1 ≠ a := by omega
    simp [Memory.read, this, ih (fun d hd => h d (by simp [hd]))]

/-- A byte below every listed address of a rising memory is the unlisted one. -/
theorem Memory.read_below {c : Host.Cell} {rest : Memory} (h : List.Pairwise (fun c d => c.1 < d.1) (c :: rest))
    {a : Nat} (ha : a ≤ c.1) : Memory.read rest a = Memory.unlisted :=
  Memory.read_of_lt fun d hd => lt_of_le_of_lt ha ((List.pairwise_cons.mp h).1 d hd)

/-- The byte written is read back, and every other byte is as it was. -/
theorem Memory.read_write {m : Memory} (h : m.Pairwise (fun c d => c.1 < d.1)) (a b : Nat) (v : Byte) :
    (m.write a v).read b = if b = a then v else m.read b := by
  induction m with
  | nil => by_cases hv : v = Memory.unlisted <;> by_cases hb : b = a <;> simp_all [Memory.write, Memory.read, eq_comm]
  | cons c rest ih =>
    obtain ⟨k, w⟩ := c
    have ih := ih (List.pairwise_cons.mp h).2
    have below : ∀ {x : Nat}, x ≤ k → Memory.read rest x = Memory.unlisted := fun hx => Memory.read_below h hx
    rcases lt_trichotomy a k with hlt | rfl | hgt
    · have hka : k ≠ a := by omega
      by_cases hv : v = Memory.unlisted
      · by_cases hb : b = a
        · subst hb; simp [Memory.write, hlt, hv, Memory.read, hka, below hlt.le]
        · simp [Memory.write, hlt, hv, Memory.read, hb]
      · simp [Memory.write, hlt, hv, Memory.read, eq_comm]
    · by_cases hv : v = Memory.unlisted
      · by_cases hb : b = a
        · subst hb; simp [Memory.write, hv, below le_rfl]
        · simp [Memory.write, hv, Memory.read, hb, Ne.symm hb]
      · by_cases hb : b = a
        · subst hb; simp [Memory.write, hv, Memory.read]
        · simp [Memory.write, hv, Memory.read, hb, Ne.symm hb]
    · have h1 : ¬ a < k := by omega
      have h2 : ¬ a = k := by omega
      by_cases hb : k = b
      · subst hb
        simp [Memory.write, h1, h2, Memory.read, Ne.symm h2]
      · simp [Memory.write, h1, h2, Memory.read, hb, ih]

/-- A listed entry after a write is the one written or was listed before. -/
theorem Memory.mem_write {m : Memory} {a : Nat} {v : Byte} {c : Host.Cell} (h : c ∈ m.write a v) :
    (c = (a, v) ∧ v ≠ Memory.unlisted) ∨ c ∈ m := by
  induction m with
  | nil => simp only [Memory.write] at h; split at h <;> simp_all
  | cons d rest ih =>
    simp only [Memory.write] at h
    split at h
    · split at h <;> simp_all
    · split at h
      · split at h
        · exact .inr (List.mem_cons_of_mem _ h)
        · rcases List.mem_cons.mp h with rfl | h
          · exact .inl ⟨rfl, by assumption⟩
          · exact .inr (List.mem_cons_of_mem _ h)
      · rcases List.mem_cons.mp h with rfl | h
        · exact .inr (by simp)
        · exact (ih h).imp_right (List.mem_cons_of_mem _)

theorem Memory.write_rising {m : Memory} (h : m.Pairwise (fun c d => c.1 < d.1)) (a : Nat) (v : Byte) :
    (m.write a v).Pairwise (fun c d => c.1 < d.1) := by
  induction m with
  | nil => simp only [Memory.write]; split <;> simp
  | cons d rest ih =>
    obtain ⟨hd, hrest⟩ := List.pairwise_cons.mp h
    simp only [Memory.write]
    split
    · split
      · exact h
      · refine List.pairwise_cons.mpr ⟨fun c hc => ?_, h⟩
        rcases List.mem_cons.mp hc with rfl | hc
        · assumption
        · exact lt_trans (by assumption) (hd c hc)
    · split
      · rename_i heq
        split
        · exact hrest
        · exact List.pairwise_cons.mpr ⟨fun c hc => heq ▸ hd c hc, hrest⟩
      · refine List.pairwise_cons.mpr ⟨fun c hc => ?_, ih hrest⟩
        rcases Memory.mem_write hc with ⟨rfl, -⟩ | hc
        · show d.1 < a; omega
        · exact hd c hc

/-- A write inside memory keeps the canonical form. -/
theorem Memory.write_wf {m : Memory} (h : m.wf) {a : Nat} (ha : a < Config.memSize) (v : Byte) : (m.write a v).wf :=
  ⟨Memory.write_rising h.1 a v, fun c hc => by
    rcases Memory.mem_write hc with ⟨rfl, hv⟩ | hc
    · exact ⟨ha, hv⟩
    · exact h.2 c hc⟩

theorem Memory.storeBytes_rising {m : Memory} (h : m.Pairwise (fun c d => c.1 < d.1)) (base : Nat) (f : Nat → Byte)
    (n : Nat) : (m.storeBytes base f n).Pairwise (fun c d => c.1 < d.1) := by
  induction n with
  | zero => exact h
  | succ n ih => exact Memory.write_rising ih _ _

/-- The stored bytes are read back and every other byte is as it was. -/
theorem Memory.read_storeBytes {m : Memory} (h : m.Pairwise (fun c d => c.1 < d.1)) (base : Nat) (f : Nat → Byte)
    (n b : Nat) : (m.storeBytes base f n).read b = if base ≤ b ∧ b < base + n then f (b - base) else m.read b := by
  induction n with
  | zero => simp [Memory.storeBytes]
  | succ n ih =>
    rw [Memory.storeBytes, Memory.read_write (Memory.storeBytes_rising h base f n), ih]
    by_cases hb : b = base + n
    · subst hb; simp
    · simp only [hb, if_false]
      congr 1
      simp only [eq_iff_iff]; omega

/-- A range of writes inside memory keeps the canonical form. -/
theorem Memory.storeBytes_wf {m : Memory} (h : m.wf) {base n : Nat} (hn : base + n ≤ Config.memSize) (f : Nat → Byte) :
    (m.storeBytes base f n).wf := by
  induction n with
  | zero => exact h
  | succ n ih => exact Memory.write_wf (ih (by omega)) (by omega) _

/-- Memory after Reset has the form. -/
theorem Memory.reset_wf : Memory.wf State.reset.mem := by decide

end Sys2Proof.Machine
end

