-- ==== Sys2Proof/Laws/Exec.lean ====
section
/-! SUPPORT. What the instructions that access memory through I answer when all their bytes lie inside memory: one
equation each, so that no proof unfolds the bounds check. -/

namespace Sys2Proof.Machine

variable (s : State)

theorem State.inBounds_iff (n : Nat) : s.outOfBounds n = false ↔ n = 0 ∨ s.i.toNat + n ≤ 4096 := by
  rw [← Bool.not_eq_true, State.outOfBounds_iff]; omega

theorem exec_ldB_inBounds (x : Nibble) (h : s.i.toNat + 2 < 4096) :
    exec (.ldB x) s = .next (s.storeBytes (s.dataAddr 0) (decimalDigit (s.getV x)) 3).advance := by
  have h : s.outOfBounds (dataBytes (.ldB x)) = false := (s.inBounds_iff _).mpr (.inr (by simp [dataBytes]; omega))
  rw [exec, execLdB, withData_inBounds s h]

theorem exec_stRegs_inBounds (x : Nibble) (h : s.i.toNat + x.toNat < 4096) :
    exec (.stRegs x) s =
      .next (s.storeBytes (s.dataAddr 0) (fun k => s.getV (BitVec.ofNat 4 k)) (x.toNat + 1)).advance := by
  have h : s.outOfBounds (dataBytes (.stRegs x)) = false :=
    (s.inBounds_iff _).mpr (.inr (by simp [dataBytes, regCopyCount]; omega))
  rw [exec, execStRegs, withData_inBounds s h]; rfl

theorem exec_ldRegs_inBounds (x : Nibble) (h : s.i.toNat + x.toNat < 4096) :
    exec (.ldRegs x) s = .next (s.loadRegs (s.dataAddr 0) (x.toNat + 1)).advance := by
  have h : s.outOfBounds (dataBytes (.ldRegs x)) = false :=
    (s.inBounds_iff _).mpr (.inr (by simp [dataBytes, regCopyCount]; omega))
  rw [exec, execLdRegs, withData_inBounds s h]; rfl

/-- What the drawing loop leaves for a draw in this state. -/
def State.canvas (x y n : Nibble) : Canvas :=
  drawRows (s.getV x) (s.getV y) (fun i => s.mem.read (s.i.toNat + i)) n.toNat ⟨s.fb, false⟩

theorem exec_drw_inBounds (x y n : Nibble) (h : n.toNat = 0 ∨ s.i.toNat + n.toNat - 1 < 4096) :
    exec (.drw x y n) s =
      .next ((s.setFB (s.canvas x y n).fb).setV regVF (flagByte (s.canvas x y n).hit)).advance := by
  have h : s.outOfBounds (dataBytes (.drw x y n)) = false := (s.inBounds_iff _).mpr (by simp [dataBytes]; omega)
  rw [exec, execDrw, withData_inBounds s h]; rfl

end Sys2Proof.Machine
end

