-- ==== Sys2Proof/Laws/Host.lean ====
section
/-! SUPPORT. The small lemmas of the host's operations: the spin, the timers, one operation of a run at a time. -/

namespace Sys2Proof.Machine

variable (s : State)

/-! ## The spin -/

theorem State.atSpin_iff : s.atSpin = true ↔
    s.fault = none ∧ s.pc.toNat ≤ 4094 ∧ s.fetchInstr = .jp (s.pc.setWidth 12) := by
  simp [State.atSpin, State.halted, and_assoc]

/-- The fetch guard leaves a PC of at most 4094 as it is. -/
theorem State.atFetch_of_le (h : s.pc.toNat ≤ 4094) : s.atFetch = s := by
  have : fetchAddr s.pc = s.pc := by unfold fetchAddr; exact if_neg (by omega)
  rw [State.atFetch, this]; rfl

@[simp] theorem State.withKeys_atSpin (k : BitVec 16) : (s.withKeys k).atSpin = s.atSpin := rfl
@[simp] theorem State.withKeys_fetchInstr (k : BitVec 16) : (s.withKeys k).fetchInstr = s.fetchInstr := rfl
@[simp] theorem State.withKeys_self : s.withKeys s.keys = s := rfl
@[simp] theorem State.withKeys_withKeys (j k : BitVec 16) : (s.withKeys j).withKeys k = s.withKeys k := rfl

/-! ## The timers -/

@[simp] theorem State.writeTimer_atSpin (t : Timer) (b : Byte) : (s.writeTimer t b).atSpin = s.atSpin := by
  cases t <;> rfl

@[simp] theorem State.readTimer_writeTimer (t u : Timer) (b : Byte) :
    (s.writeTimer t b).readTimer u = if u = t then b else s.readTimer u := by
  cases t <;> cases u <;> rfl

/-! ## One operation of a run -/

@[simp] theorem hostRun_nil : hostRun [] s = .next s := rfl

theorem hostRun_cons {op : HostOp} {t : State} {reply : HostReply} (h : hostDo op s = .next (t, reply))
    (ops : List HostOp) : hostRun (op :: ops) s = hostRun ops t := by rw [hostRun, h]

theorem hostDo_step {t : State} {k : BitVec 16} (h : step (s.withKeys k) = .next t) :
    hostDo (.step k) s = .next (t, .stepped t.stepResult) := by rw [hostDo, h]

theorem runEnd_atSpin (h : s.atSpin = true) (ops : List HostOp) : runEnd ops s = some s := by
  cases ops <;> rw [runEnd, if_pos h]

theorem runEnd_cons (hs : s.atSpin = false) {op : HostOp} {t : State} {reply : HostReply}
    (h : hostDo op s = .next (t, reply)) (ops : List HostOp) : runEnd (op :: ops) s = runEnd ops t := by
  rw [runEnd, if_neg (by simp [hs]), h]

end Sys2Proof.Machine
end

