-- ==== Sys2Proof/Laws/PerInstr.lean ====
section
/-! SUPPORT. Statements made per instruction: `OpcodeRow`, the row of the opcode map (spec/30_encoding.md R85) that the
word of a well-formed instruction selects is the row of that instruction. One lemma per constructor. -/

namespace Sys2Proof.Laws.OpcodeRow

/-- The word of a well-formed instruction selects the instruction's own row of the opcode map, by match and mask. -/
def Statement (i : Instr) : Prop := i.wellFormed = true → selectedRule (encode i) = i.rule

theorem cls : Statement .cls := fun _ => by decide
theorem ret : Statement .ret := fun _ => by decide

theorem jp (nnn : Addr12) : Statement (.jp nnn) := fun _ => by
  rw [selectedRule_eq]; simp [encode, ne_exact, Instr.rule]
theorem call (nnn : Addr12) : Statement (.call nnn) := fun _ => by
  rw [selectedRule_eq]; simp [encode, ne_exact, Instr.rule]
theorem seImm (x : Nibble) (nn : Byte) : Statement (.seImm x nn) := fun _ => by
  rw [selectedRule_eq]; simp [encode, ne_exact, Instr.rule]
theorem sneImm (x : Nibble) (nn : Byte) : Statement (.sneImm x nn) := fun _ => by
  rw [selectedRule_eq]; simp [encode, ne_exact, Instr.rule]
theorem seReg (x y : Nibble) : Statement (.seReg x y) := fun _ => by
  rw [selectedRule_eq]; simp [encode, ne_exact, Instr.rule]
theorem ldImm (x : Nibble) (nn : Byte) : Statement (.ldImm x nn) := fun _ => by
  rw [selectedRule_eq]; simp [encode, ne_exact, Instr.rule]
theorem addImm (x : Nibble) (nn : Byte) : Statement (.addImm x nn) := fun _ => by
  rw [selectedRule_eq]; simp [encode, ne_exact, Instr.rule]
theorem ldReg (x y : Nibble) : Statement (.ldReg x y) := fun _ => by
  rw [selectedRule_eq]; simp [encode, ne_exact, Instr.rule]
theorem orReg (x y : Nibble) : Statement (.orReg x y) := fun _ => by
  rw [selectedRule_eq]; simp [encode, ne_exact, Instr.rule]
theorem andReg (x y : Nibble) : Statement (.andReg x y) := fun _ => by
  rw [selectedRule_eq]; simp [encode, ne_exact, Instr.rule]
theorem xorReg (x y : Nibble) : Statement (.xorReg x y) := fun _ => by
  rw [selectedRule_eq]; simp [encode, ne_exact, Instr.rule]
theorem addReg (x y : Nibble) : Statement (.addReg x y) := fun _ => by
  rw [selectedRule_eq]; simp [encode, ne_exact, Instr.rule]
theorem subReg (x y : Nibble) : Statement (.subReg x y) := fun _ => by
  rw [selectedRule_eq]; simp [encode, ne_exact, Instr.rule]
theorem shr (x y : Nibble) : Statement (.shr x y) := fun _ => by
  rw [selectedRule_eq]; simp [encode, ne_exact, Instr.rule]
theorem subnReg (x y : Nibble) : Statement (.subnReg x y) := fun _ => by
  rw [selectedRule_eq]; simp [encode, ne_exact, Instr.rule]
theorem shl (x y : Nibble) : Statement (.shl x y) := fun _ => by
  rw [selectedRule_eq]; simp [encode, ne_exact, Instr.rule]
theorem sneReg (x y : Nibble) : Statement (.sneReg x y) := fun _ => by
  rw [selectedRule_eq]; simp [encode, ne_exact, Instr.rule]
theorem ldI (nnn : Addr12) : Statement (.ldI nnn) := fun _ => by
  rw [selectedRule_eq]; simp [encode, ne_exact, Instr.rule]
theorem jpV0 (nnn : Addr12) : Statement (.jpV0 nnn) := fun _ => by
  rw [selectedRule_eq]; simp [encode, ne_exact, Instr.rule]
theorem rnd (x : Nibble) (nn : Byte) : Statement (.rnd x nn) := fun _ => by
  rw [selectedRule_eq]; simp [encode, ne_exact, Instr.rule]
theorem drw (x y n : Nibble) : Statement (.drw x y n) := fun _ => by
  rw [selectedRule_eq]; simp [encode, ne_exact, Instr.rule]
theorem skp (x : Nibble) : Statement (.skp x) := fun _ => by
  rw [selectedRule_eq]; simp [encode, ne_exact, Instr.rule]
theorem sknp (x : Nibble) : Statement (.sknp x) := fun _ => by
  rw [selectedRule_eq]; simp [encode, ne_exact, Instr.rule]
theorem ldDT (x : Nibble) : Statement (.ldDT x) := fun _ => by
  rw [selectedRule_eq]; simp [encode, ne_exact, Instr.rule]
theorem addI (x : Nibble) : Statement (.addI x) := fun _ => by
  rw [selectedRule_eq]; simp [encode, ne_exact, Instr.rule]
theorem ldF (x : Nibble) : Statement (.ldF x) := fun _ => by
  rw [selectedRule_eq]; simp [encode, ne_exact, Instr.rule]
theorem ldB (x : Nibble) : Statement (.ldB x) := fun _ => by
  rw [selectedRule_eq]; simp [encode, ne_exact, Instr.rule]
theorem stRegs (x : Nibble) : Statement (.stRegs x) := fun _ => by
  rw [selectedRule_eq]; simp [encode, ne_exact, Instr.rule]
theorem ldRegs (x : Nibble) : Statement (.ldRegs x) := fun _ => by
  rw [selectedRule_eq]; simp [encode, ne_exact, Instr.rule]

/-- A well-formed `nop` holds an opcode of the unrecognized space, which no row matches. -/
theorem nop (w : Word) : Statement (.nop w) := fun h => by
  have h : unrecognized w = true := h
  rw [unrecognized_eq] at h
  rw [selectedRule_eq, encode, Instr.rule]
  split at h
  case h_1 hg => simp_all
  case h_7 => simp at h
  all_goals
    rename_i hg
    have := ne_exact (w := w) (by simp [hg])
    simp only [bne_iff_ne, ne_eq, Bool.and_eq_true, Bool.not_eq_true', List.contains_iff_mem, List.mem_cons,
      List.not_mem_nil, or_false] at h
  case h_3 => rcases h with hn | hn | hn | hn | hn | hn | hn <;> simp [hg, hn, this]
  all_goals simp_all

end Sys2Proof.Laws.OpcodeRow
end

