-- ==== Sys2Proof/Tests/Slice0.lean ====
section
/-! SUPPORT. The model's own tests: well-formedness, one word of every row decoded, single steps with the results of
spec/95_test_vectors.md (each test names its vector), and a witness for every statement that has hypotheses. -/

open Sys2Proof Sys2Proof.Machine

namespace Sys2Proof.Tests

/-! ## Small states -/

/-- The reset state with some registers set. -/
def regs (vs : List (Nibble × Byte)) : State := vs.foldl (fun s p => s.setV p.1 p.2) State.reset

/-- A state with bytes poked into its memory from an address. -/
def poke (a : Nat) (bytes : List Byte) (s : State) : State :=
  s.storeBytes a (fun k => bytes.getD k 0) bytes.length

/-- One step with a word placed where the step fetches. -/
def after (w : Nat) (s : State) : Option State :=
  match step (s.withFetchWord 16 w) with
  | .next t => some t
  | .fault _ => none
  | .refused _ => none

/-- What one step leaves in the places a test looks at. -/
def seen {α : Type} (w : Nat) (s : State) (look : State → α) : Option α := (after w s).map look

/-- The fault record a step leaves, with PC. -/
def stopped (t : State) : Option FaultRecord × Nat := (t.fault, t.pc.toNat)

/-! ## Well-formedness: a no-operation over a recognized opcode is refused -/

theorem test_nop_over_cls_ill_formed : Instr.wellFormed (.nop 0x00E0#16) = false := by decide
theorem test_nop_over_ret_ill_formed : Instr.wellFormed (.nop 0x00EE#16) = false := by decide
theorem test_nop_over_seReg_ill_formed : Instr.wellFormed (.nop 0x5120#16) = false := by decide
theorem test_nop_over_shl_ill_formed : Instr.wellFormed (.nop 0x812E#16) = false := by decide
theorem test_nop_over_sneReg_ill_formed : Instr.wellFormed (.nop 0x9120#16) = false := by decide
theorem test_nop_over_skp_ill_formed : Instr.wellFormed (.nop 0xE19E#16) = false := by decide
theorem test_nop_over_ldRegs_ill_formed : Instr.wellFormed (.nop 0xF165#16) = false := by decide
theorem test_nop_over_jp_ill_formed : Instr.wellFormed (.nop 0x1000#16) = false := by decide
theorem test_nop_over_unrecognized_well_formed : Instr.wellFormed (.nop 0xF107#16) = true := by decide

/-! ## Decoding: a word of every row, written out from 30_encoding.md R82 and R85 -/

theorem test_decode_cls : decode 0b0000000011100000#16 = .cls := by decide
theorem test_decode_ret : decode 0b0000000011101110#16 = .ret := by decide
theorem test_decode_jp : decode 0b0001101010111100#16 = .jp 0xABC#12 := by decide
theorem test_decode_call : decode 0b0010001100000001#16 = .call 0x301#12 := by decide
theorem test_decode_seImm : decode 0b0011101000000101#16 = .seImm 0xA#4 0x05#8 := by decide
theorem test_decode_sneImm : decode 0b0100000111110000#16 = .sneImm 0x1#4 0xF0#8 := by decide
theorem test_decode_seReg : decode 0b0101101010110000#16 = .seReg 0xA#4 0xB#4 := by decide
theorem test_decode_ldImm : decode 0b0110101000000101#16 = .ldImm 0xA#4 0x05#8 := by decide
theorem test_decode_addImm : decode 0b0111111100000001#16 = .addImm 0xF#4 0x01#8 := by decide
theorem test_decode_ldReg : decode 0b1000000100100000#16 = .ldReg 0x1#4 0x2#4 := by decide
theorem test_decode_orReg : decode 0b1000000100100001#16 = .orReg 0x1#4 0x2#4 := by decide
theorem test_decode_andReg : decode 0b1000000100100010#16 = .andReg 0x1#4 0x2#4 := by decide
theorem test_decode_xorReg : decode 0b1000000100100011#16 = .xorReg 0x1#4 0x2#4 := by decide
theorem test_decode_addReg : decode 0b1000101010110100#16 = .addReg 0xA#4 0xB#4 := by decide
theorem test_decode_subReg : decode 0b1000000100100101#16 = .subReg 0x1#4 0x2#4 := by decide
theorem test_decode_shr : decode 0b1000000100100110#16 = .shr 0x1#4 0x2#4 := by decide
theorem test_decode_subnReg : decode 0b1000000100100111#16 = .subnReg 0x1#4 0x2#4 := by decide
theorem test_decode_shl : decode 0b1000000100101110#16 = .shl 0x1#4 0x2#4 := by decide
theorem test_decode_sneReg : decode 0b1001101010110000#16 = .sneReg 0xA#4 0xB#4 := by decide
theorem test_decode_ldI : decode 0b1010111111111110#16 = .ldI 0xFFE#12 := by decide
theorem test_decode_jpV0 : decode 0b1011001100000010#16 = .jpV0 0x302#12 := by decide
theorem test_decode_rnd : decode 0b1100101000001111#16 = .rnd 0xA#4 0x0F#8 := by decide
theorem test_decode_drw : decode 0b1101011110100101#16 = .drw 0x7#4 0xA#4 0x5#4 := by decide
theorem test_decode_skp : decode 0b1110101010011110#16 = .skp 0xA#4 := by decide
theorem test_decode_sknp : decode 0b1110000110100001#16 = .sknp 0x1#4 := by decide
theorem test_decode_ldDT : decode 0b1111001100010101#16 = .ldDT 0x3#4 := by decide
theorem test_decode_addI : decode 0b1111001100011110#16 = .addI 0x3#4 := by decide
theorem test_decode_ldF : decode 0b1111001100101001#16 = .ldF 0x3#4 := by decide
theorem test_decode_ldB : decode 0b1111001100110011#16 = .ldB 0x3#4 := by decide
theorem test_decode_stRegs : decode 0b1111001001010101#16 = .stRegs 0x2#4 := by decide
theorem test_decode_ldRegs : decode 0b1111001001100101#16 = .ldRegs 0x2#4 := by decide
theorem test_decode_nop : decode 0b1111000100001010#16 = .nop 0xF10A#16 := by decide

/-- A table word reaches the decoder with its bytes in the hardware's order (vector E1's opcode). -/
theorem test_decode_table_word : decodeTableWord 16 0x1234 = some (.jp 0x234#12) := by decide

/-- One byte holds no instruction (30_encoding.md R80). -/
theorem test_decode_short_bytes : decodeBytes [0x12#8] = .error (.tooShort 1) := by decide

/-! ## Fetch, guard, reset -/

/-- Z2. -/
theorem test_step_from_reset : seen 0x0000 State.reset (fun t => (t.pc.toNat, t.fault)) = some (514, none) := by decide
/-- S7: the example the source gives, 6A then 05 at 512. -/
theorem test_source_example :
    (match step (poke 512 [0x6A#8, 0x05#8] State.reset) with
      | .next t => (t.getV 0xA, t.pc.toNat) | _ => (0, 0)) = (0x05#8, 514) := by decide
/-- G1. -/
theorem test_guard_4094_not_reset :
    seen 0x6B07 { State.reset with pc := 4094 } (fun t => (t.getV 0xB, t.pc.toNat)) = some (0x07#8, 4096) := by decide
/-- G2, with bytes at 4095 that play no part (G6). -/
theorem test_guard_4095_runs_512 :
    (match step (poke 4095 [0x12#8] (poke 512 [0x6A#8, 0x05#8] { State.reset with pc := 4095 })) with
      | .next t => (t.getV 0xA, t.pc.toNat) | _ => (0, 0)) = (0x05#8, 514) := by decide
/-- G5. -/
theorem test_guarded_fault_keeps_pc :
    seen 0x00EE { State.reset with pc := 4095 } stopped = some (some ⟨.stackUnderflow, 512, 0x00EE, 0⟩, 4095) := by
  decide

/-! ## Control flow -/

/-- F1. -/
theorem test_jp : seen 0x1ABC State.reset (fun t => t.pc.toNat) = some 2748 := by decide
/-- F5. -/
theorem test_call_fills_stack :
    seen 0x2300 { State.reset with sp := 15 } (fun t => (t.stack[15].toNat, t.sp.val, t.pc.toNat)) =
      some (514, 16, 768) := by decide
/-- F6. -/
theorem test_call_overflow :
    seen 0x2300 { State.reset with sp := 16 } stopped = some (some ⟨.stackOverflow, 512, 0x2300, 16⟩, 512) := by decide
/-- F7. -/
theorem test_ret :
    seen 0x00EE { State.reset with pc := 768, sp := 1, stack := State.reset.stack.set 0 516 }
      (fun t => (t.pc.toNat, t.sp.val)) = some (516, 0) := by decide
/-- F8. -/
theorem test_ret_underflow :
    seen 0x00EE State.reset stopped = some (some ⟨.stackUnderflow, 512, 0x00EE, 0⟩, 512) := by decide
/-- F11. -/
theorem test_jpV0_full_sum : seen 0xBFFF (regs [(0x0, 0xFF)]) (fun t => t.pc.toNat) = some 4350 := by decide
/-- F20: FX07 reads no timer. -/
theorem test_nop_timer_read :
    seen 0xF107 { regs [(0x1, 3)] with dt := 9 } (fun t => (t.getV 0x1, t.pc.toNat)) = some (3, 514) := by decide
/-- F16: a nonzero low nibble is no skip. -/
theorem test_nop_se_with_nibble : seen 0x5121 (regs [(0x1, 3), (0x2, 3)]) (fun t => t.pc.toNat) = some 514 := by decide

/-! ## Skips -/

/-- K1. -/
theorem test_seImm : seen 0x3A05 (regs [(0xA, 5)]) (fun t => t.pc.toNat) = some 516 := by decide
/-- K12. -/
theorem test_seImm_at_top : seen 0x3000 { State.reset with pc := 4094 } (fun t => t.pc.toNat) = some 4098 := by decide
/-- K3. -/
theorem test_sneImm_equal : seen 0x4A05 (regs [(0xA, 5)]) (fun t => t.pc.toNat) = some 514 := by decide
/-- K4. -/
theorem test_sneImm_differs : seen 0x4A05 (regs [(0xA, 6)]) (fun t => t.pc.toNat) = some 516 := by decide
/-- K5. -/
theorem test_seReg_equal : seen 0x5AB0 (regs [(0xA, 5), (0xB, 5)]) (fun t => t.pc.toNat) = some 516 := by decide
/-- K6. -/
theorem test_seReg_differs : seen 0x5AB0 (regs [(0xA, 5), (0xB, 6)]) (fun t => t.pc.toNat) = some 514 := by decide
/-- K8. -/
theorem test_sneReg_equal : seen 0x9AB0 (regs [(0xA, 5), (0xB, 5)]) (fun t => t.pc.toNat) = some 514 := by decide
/-- K9. -/
theorem test_sneReg_differs : seen 0x9AB0 (regs [(0xA, 5), (0xB, 6)]) (fun t => t.pc.toNat) = some 516 := by decide

/-! ## ALU -/

/-- A1. -/
theorem test_ldImm_vf : seen 0x6FFF State.reset (fun t => t.getV 0xF) = some 0xFF := by decide
/-- A2. -/
theorem test_addImm_no_carry :
    seen 0x7A01 (regs [(0xA, 0xFF), (0xF, 7)]) (fun t => (t.getV 0xA, t.getV 0xF)) = some (0, 7) := by decide
/-- A5. -/
theorem test_ldReg :
    seen 0x8AB0 (regs [(0xA, 1), (0xB, 2)]) (fun t => (t.getV 0xA, t.getV 0xB)) = some (2, 2) := by decide
/-- A6. -/
theorem test_orReg :
    seen 0x8AB1 (regs [(0xA, 0xF0), (0xB, 0x3C), (0xF, 9)]) (fun t => (t.getV 0xA, t.getV 0xF)) = some (0xFC, 9) := by
  decide
/-- A7. -/
theorem test_andReg :
    seen 0x8AB2 (regs [(0xA, 0xF0), (0xB, 0x3C), (0xF, 9)]) (fun t => (t.getV 0xA, t.getV 0xF)) = some (0x30, 9) := by
  decide
/-- A8. -/
theorem test_xorReg :
    seen 0x8AB3 (regs [(0xA, 0xF0), (0xB, 0x3C), (0xF, 9)]) (fun t => (t.getV 0xA, t.getV 0xF)) = some (0xCC, 9) := by
  decide
/-- A15. -/
theorem test_addReg_into_vf : seen 0x8FB4 (regs [(0xF, 200), (0xB, 100)]) (fun t => t.getV 0xF) = some 0x2C := by decide
/-- A17. -/
theorem test_addReg_from_vf :
    seen 0x8AF4 (regs [(0xA, 250), (0xF, 10)]) (fun t => (t.getV 0xA, t.getV 0xF)) = some (4, 1) := by decide
/-- A22. -/
theorem test_subReg_equal :
    seen 0x8AB5 (regs [(0xA, 7), (0xB, 7), (0xF, 1)]) (fun t => (t.getV 0xA, t.getV 0xF)) = some (0, 0) := by decide
/-- A26. -/
theorem test_subReg_from_vf :
    seen 0x8AF5 (regs [(0xA, 10), (0xF, 3)]) (fun t => (t.getV 0xA, t.getV 0xF)) = some (7, 1) := by decide
/-- A40. -/
theorem test_shr :
    seen 0x8AB6 (regs [(0xA, 5), (0xB, 0xFF)]) (fun t => (t.getV 0xA, t.getV 0xB, t.getV 0xF)) = some (2, 0xFF, 1) := by
  decide
/-- A45. -/
theorem test_shr_vf : seen 0x8FB6 (regs [(0xF, 5)]) (fun t => t.getV 0xF) = some 2 := by decide
/-- A28. -/
theorem test_subnReg :
    seen 0x8AB7 (regs [(0xA, 10), (0xB, 3)]) (fun t => (t.getV 0xA, t.getV 0xF)) = some (0xF9, 0) := by decide
/-- A30. -/
theorem test_subnReg_into_vf : seen 0x8FB7 (regs [(0xF, 3), (0xB, 10)]) (fun t => t.getV 0xF) = some 7 := by decide
/-- A50. -/
theorem test_shl :
    seen 0x8ABE (regs [(0xA, 0x81)]) (fun t => (t.getV 0xA, t.getV 0xF)) = some (2, 1) := by decide
/-- A54. -/
theorem test_shl_vf : seen 0x8FBE (regs [(0xF, 0x81)]) (fun t => t.getV 0xF) = some 2 := by decide
/-- A61, the draw counted: the value is free. -/
theorem test_rnd_draws_once : seen 0xCA00 (regs [(0xA, 0xFF)]) (fun t => (t.rng.drawn, t.pc.toNat)) = some (1, 514) := by
  decide

/-! ## Index register and memory -/

/-- M1. -/
theorem test_ldI : seen 0xAFFF State.reset (fun t => t.i.toNat) = some 4095 := by decide
/-- M3. -/
theorem test_addI_no_flag :
    seen 0xFA1E { regs [(0xA, 1), (0xF, 7)] with i := 4095 } (fun t => (t.i.toNat, t.getV 0xF)) = some (4096, 7) := by
  decide
/-- M4. -/
theorem test_addI_wraps : seen 0xFA1E { regs [(0xA, 0xFF)] with i := 0xFFFF } (fun t => t.i.toNat) = some 254 := by decide
/-- M7. -/
theorem test_ldF_whole_byte : seen 0xFA29 (regs [(0xA, 0xFF)]) (fun t => t.i.toNat) = some 1275 := by decide
/-- M13. -/
theorem test_ldB_last_legal :
    seen 0xFA33 { regs [(0xA, 255)] with i := 4093 } (fun t => (t.mem.read 4093, t.mem.read 4094, t.mem.read 4095)) =
      some (2, 5, 5) := by decide
/-- M14. -/
theorem test_ldB_out_of_bounds :
    seen 0xFA33 { regs [(0xA, 9)] with i := 4094 } (fun t => (stopped t, t.mem.read 4094)) =
      some ((some ⟨.outOfBoundsMemoryAccess, 512, 0xFA33, 4096⟩, 512), 0) := by decide
/-- M20. -/
theorem test_stRegs :
    seen 0xF255 { regs [(0x0, 0x11), (0x1, 0x22), (0x2, 0x33), (0x3, 0x44)] with i := 0x400 }
      (fun t => (t.mem.read 0x400, t.mem.read 0x402, t.mem.read 0x403, t.i.toNat)) =
      some (0x11, 0x33, 0, 0x400) := by decide
/-- M22. -/
theorem test_stRegs_no_partial_store :
    seen 0xF155 { regs [(0x0, 0x11), (0x1, 0x22)] with i := 4095 } (fun t => (stopped t, t.mem.read 4095)) =
      some ((some ⟨.outOfBoundsMemoryAccess, 512, 0xF155, 4096⟩, 512), 0) := by decide
/-- M30. -/
theorem test_ldRegs :
    seen 0xF265 (poke 0x400 [0x0A#8, 0x0B#8, 0x0C#8, 0x0D#8] { regs [(0x3, 0x99)] with i := 0x400 })
      (fun t => (t.getV 0, t.getV 2, t.getV 3, t.i.toNat)) = some (0x0A, 0x0C, 0x99, 0x400) := by decide
/-- M32. -/
theorem test_ldRegs_out_of_bounds :
    seen 0xF065 { State.reset with i := 4096 } stopped =
      some (some ⟨.outOfBoundsMemoryAccess, 512, 0xF065, 4096⟩, 512) := by decide

/-! ## Display -/

/-- D1, one pixel of it. -/
theorem test_cls :
    seen 0x00E0 { regs [(0xF, 1)] with fb := State.reset.fb.turnOn 31 63 } (fun t => (t.pixel 31 63, t.getV 0xF)) =
      some (false, 1) := by decide
/-- D10, the corner and both ends of the row. -/
theorem test_drw_wraps :
    seen 0xD011 (poke 0x300 [0xFF#8] { regs [(0x0, 0xFF), (0x1, 0xFF)] with i := 0x300 })
      (fun t => (t.pixel 31 63, t.pixel 31 0, t.pixel 31 6, t.pixel 31 7, t.pixel 0 0, t.getV 0xF)) =
      some (true, true, true, false, false, 0) := by decide
/-- D4: an on pixel stays on and collides. -/
theorem test_drw_collides :
    seen 0xD011 (poke 0x300 [0x80#8] { State.reset with i := 0x300, fb := State.reset.fb.turnOn 0 0 })
      (fun t => (t.pixel 0 0, t.getV 0xF)) = some (true, 1) := by decide

/-! ## Keypad and timer -/

/-- Y6. -/
theorem test_skp_key_15 :
    seen 0xEA9E { regs [(0xA, 15)] with keys := 0x8000 } (fun t => t.pc.toNat) = some 516 := by decide
/-- Y9. -/
theorem test_skp_not_masked :
    seen 0xEA9E { regs [(0xA, 0x15)] with keys := 0xFFFF } (fun t => t.pc.toNat) = some 514 := by decide
/-- Y3. -/
theorem test_sknp_down :
    seen 0xEAA1 { regs [(0xA, 5)] with keys := 0x0020 } (fun t => t.pc.toNat) = some 514 := by decide
/-- Y8. -/
theorem test_sknp_key_16 :
    seen 0xEAA1 { regs [(0xA, 16)] with keys := 0xFFFF } (fun t => t.pc.toNat) = some 516 := by decide
/-- Y11. -/
theorem test_ldDT : seen 0xFF15 (regs [(0xF, 7)]) (fun t => (t.dt, t.st)) = some (7, 0) := by decide

/-! ## The host -/

/-- Z6. -/
theorem test_load_too_large :
    hostDo (.load [0xAA#8] 4096) State.reset = .next (State.reset, .failed .programTooLarge 4097) := rfl
/-- Z1: Reset clears the latch and erases the program. -/
theorem test_reset_of_halted_core :
    (match after 0x00EE State.reset with
      | some t => (match hostDo (.reset 7) t with
        | .next (u, _) => (t.halted, t.mem.read 513, u.halted, u.mem.read 513) | _ => (false, 0, true, 0))
      | none => (false, 0, true, 0)) = (true, 0xEE#8, false, 0x00#8) := by decide
/-- A run ends at its first spin: 6005 at 512, then 1202, which jumps to 514, its own address (R206). -/
theorem test_run_ends_at_spin :
    (runEnd [.step 0, .step 0, .step 0] (poke 512 [0x60#8, 0x05#8, 0x12#8, 0x02#8] State.reset)).map
      (fun t => (t.pc.toNat, t.getV 0, t.atSpin)) = some (514, 0x05#8, true) := by decide
/-- F3: the jump to 4095 is no spin, though it comes back to 512 for ever. -/
theorem test_jump_to_4095_is_no_spin :
    (({ State.reset with pc := 4095 }).placeWord 0x1FFF#16).atSpin = false := by decide
/-- Z5. -/
theorem test_load_last_byte :
    (match State.reset.load [0xAA#8] 4095 with | .ok t => t.mem.read 4095 | .error _ => 0) = 0xAA#8 := by decide
/-- Z9: a timer write reaches a halted core, which stays halted. -/
theorem test_timer_write_while_halted :
    (match after 0x00EE State.reset with
      | some t => (match hostDo (.writeTimer .dt 5) t with | .next (u, _) => (u.dt, u.halted) | _ => (0, false))
      | none => (0, false)) = (5, true) := by decide

/-! ## Witnesses: states and operands that meet the hypotheses of the statements, at the ends of their ranges -/

/-- The state a CALL leaves that was executed after reset. -/
def called : State := { State.reset with sp := 1, stack := State.reset.stack.set 0 514, pc := 768 }

/-- The state a RET at reset leaves: halted. -/
def halted : State := State.reset.raise .stackUnderflow .ret 0

/-- A state with I at the last byte of memory. -/
def atTop : State := { State.reset with i := 4095 }

theorem reset_inv : State.reset.Inv where
  mem := by decide
  pc := by decide
  stack := by unfold State.StackOk; decide
  fault := fun _ h => by cases h

theorem called_inv : called.Inv where
  mem := by decide
  pc := by decide
  stack := by unfold State.StackOk; decide
  fault := fun _ h => by cases h

theorem halted_inv : halted.Inv where
  mem := by decide
  pc := by decide
  stack := by unfold State.StackOk; decide
  fault := fun _ h => by cases h; exact ⟨by decide, by decide, by decide, rfl⟩

/-- O1: the spin and the jump to the last byte. -/
theorem witness_JumpSetsPcToNnn : State.reset.pc.toNat = (0x200#12).toNat ∧ (0xFFF#12 : Addr12) = 0xFFF#12 := by decide
/-- O2: both ends of the depth. -/
theorem witness_CallPushesReturnAddress : State.reset.sp.val < 16 ∧ { State.reset with sp := 15 }.sp.val < 16 := by decide
/-- O3. -/
theorem witness_CallDepthIsSixteen :
    { State.reset with sp := 16 }.sp.val = 16 ∧ { State.reset with sp := 15 }.sp.val = 15 := by decide
/-- O4: a stack of one entry under the invariant, a full one, the empty one, and a return to 4095. -/
theorem witness_RetPopsNewestEntry :
    (0 < called.sp.val ∧ called.Inv) ∧ 0 < { State.reset with sp := 16 }.sp.val ∧ State.reset.sp.val = 0 ∧
    ∃ t, exec .ret { called with stack := State.reset.stack.set 0 4095 } = .next t ∧ 4095 ≤ t.pc.toNat :=
  ⟨⟨by decide, called_inv⟩, by decide, by decide, _, rfl, by decide⟩
/-- O5: with the last free entry. -/
theorem witness_RetUndoesCall :
    { State.reset with sp := 15 }.sp.val < 16 ∧ ∃ t, exec (.call 0x300#12) { State.reset with sp := 15 } = .next t :=
  ⟨by decide, _, rfl⟩
/-- O6: the jump has no hypotheses, the largest sum is reached. -/
theorem witness_JumpV0SetsPcToSum : (0xFFF#12).toNat + ((regs [(0x0, 0xFF)]).getV 0).toNat = 4350 := by decide
/-- O7: words no row matches, next to those one does. -/
theorem witness_UnrecognizedOpcodeIsNop :
    (∀ row ∈ opcodeMap, 0x00E1#16 &&& row.mask ≠ row.matchBits) ∧
    (∀ row ∈ opcodeMap, 0xE19F#16 &&& row.mask ≠ row.matchBits) ∧
    0x07#8 ∈ [0x07#8, 0x0A#8, 0x18#8] ∧ (0x0E1#12 : Addr12) ≠ 0x0E0#12 ∧ (0x0E1#12 : Addr12) ≠ 0x0EE#12 := by decide
/-- O9. -/
theorem witness_SkipOnRegisters : (1 : Nibble) ≠ 0 ∧ (0xF#4 : Nibble) ≠ 0 := by decide
/-- O14, O15, O16: a destination other than VF. -/
theorem witness_FlagDestinations : (0xE#4 : Nibble) ≠ 0xF#4 ∧ (0x0#4 : Nibble) ≠ 0xF#4 := by decide
/-- O17: every one of its five instructions answers a next state. -/
theorem witness_FlagAndResultAreExact :
    (0xE#4 : Nibble) ≠ 0xF#4 ∧ (∃ t, exec (.addReg 0xE#4 0xF#4) State.reset = .next t) ∧
    (∃ t, exec (.subReg 0xE#4 0xF#4) State.reset = .next t) ∧
    (∃ t, exec (.subnReg 0xE#4 0xF#4) State.reset = .next t) ∧
    (∃ t, exec (.shr 0xE#4 0xF#4) State.reset = .next t) ∧ (∃ t, exec (.shl 0xE#4 0xF#4) State.reset = .next t) :=
  ⟨by decide, ⟨_, rfl⟩, ⟨_, rfl⟩, ⟨_, rfl⟩, ⟨_, rfl⟩, ⟨_, rfl⟩⟩
/-- O18: a mask with clear bits. -/
theorem witness_RandomIsMaskedDraw : (0xF0#8).getLsbD 3 = false := by decide
/-- O22: the last address where it completes and the first where it faults. -/
theorem witness_StoreDecimalDigits :
    ({ State.reset with i := 4093 }.mem.wf ∧ { State.reset with i := 4093 }.i.toNat + 2 < 4096) ∧
    4096 ≤ { State.reset with i := 4094 }.i.toNat + 2 := by decide
/-- O23, O24: one register at the last byte, sixteen below it. -/
theorem witness_RegisterBlocks :
    (atTop.mem.wf ∧ atTop.i.toNat + (0x0#4).toNat < 4096) ∧
    { State.reset with i := 4080 }.i.toNat + (0xF#4).toNat < 4096 := by decide
/-- O25. -/
theorem witness_StoreLoadRoundTrip :
    State.reset.mem.wf ∧ State.reset.i.toNat + (0xF#4).toNat < 4096 ∧
    ∃ t, exec (.stRegs 0xF#4) State.reset = .next t := ⟨by decide, by decide, _, rfl⟩
/-- O26: each of its three cases at its first address. -/
theorem witness_OutOfBoundsConditions :
    State.reset.fault = none ∧ (1 ≤ (0x1#4).toNat ∧ 4096 ≤ { State.reset with i := 4096 }.i.toNat + (0x1#4).toNat - 1) ∧
    4096 ≤ { State.reset with i := 4094 }.i.toNat + 2 ∧ 4096 ≤ atTop.i.toNat + (0x1#4).toNat := by decide
/-- O26: a step that latches it. -/
theorem witness_OutOfBoundsStep :
    ∃ t r, (atTop.placeWord 0xF155#16).fault = none ∧ step (atTop.placeWord 0xF155#16) = .next t ∧ t.fault = some r ∧
      r.kind = .outOfBoundsMemoryAccess := ⟨_, _, by decide, rfl, rfl, by decide⟩
/-- O27. -/
theorem witness_OutOfBoundsHasNoPartialEffect :
    (1 ≤ dataBytes (.drw 0x0#4 0x0#4 0x2#4) ∧ 4096 ≤ atTop.i.toNat + (dataBytes (.drw 0x0#4 0x0#4 0x2#4) - 1)) ∧
    (1 ≤ dataBytes (.ldRegs 0x1#4) ∧ 4096 ≤ atTop.i.toNat + (dataBytes (.ldRegs 0x1#4) - 1)) := by decide
/-- O28: the two bytes after PC, sixteen at the top of memory, the last digits, and the last load that fits. -/
theorem witness_StoredCodeIsFetchedNext :
    (State.reset.mem.wf ∧ { State.reset with i := 514 }.i.toNat + (0x1#4).toNat < 4096) ∧
    { State.reset with i := 4080 }.i.toNat + (0xF#4).toNat < 4096 ∧ { State.reset with i := 4093 }.i.toNat + 2 < 4096 ∧
    [0xAA#8].length + 4095 ≤ 4096 := by decide
/-- O29: CLS turns a pixel off. -/
theorem witness_ClearScreen :
    (1 : Nibble) ≠ 0 ∧ ∃ t, exec .cls { State.reset with fb := State.reset.fb.turnOn 31 63 } = .next t ∧
      { State.reset with fb := State.reset.fb.turnOn 31 63 }.pixel 31 63 = true ∧ t.pixel 31 63 = false :=
  ⟨by decide, _, rfl, by decide, by decide⟩
/-- O30: no row anywhere, and one row at the last byte. -/
theorem witness_DrawIsOrWithSprite :
    ((0x0#4).toNat = 0 ∨ { State.reset with i := 0xFFFF }.i.toNat + (0x0#4).toNat - 1 < 4096) ∧
    ((0x1#4).toNat = 0 ∨ atTop.i.toNat + (0x1#4).toNat - 1 < 4096) := by decide
/-- O31. -/
theorem witness_DrawTwiceCollides :
    (0x0#4 : Nibble) ≠ 0xF#4 ∧ (0x1#4 : Nibble) ≠ 0xF#4 ∧ ((0x1#4).toNat = 0 ∨ atTop.i.toNat + (0x1#4).toNat - 1 < 4096) ∧
    ∃ t, exec (.drw 0x0#4 0x1#4 0x1#4) atTop = .next t := ⟨by decide, by decide, by decide, _, rfl⟩
/-- O33: reset executes a no-operation, so no key skip. -/
theorem witness_KeysMatterToKeySkipsOnly :
    (∃ t, step State.reset = .next t) ∧
    ∀ x : Nibble, State.reset.fetchInstr ≠ .skp x ∧ State.reset.fetchInstr ≠ .sknp x :=
  ⟨⟨_, rfl⟩, by decide⟩
/-- O34: an instruction that is no timer load. -/
theorem witness_LoadDelayTimer :
    (∃ t, exec (.addI 0x1#4) State.reset = .next t) ∧ ∀ x : Nibble, Instr.addI 0x1#4 ≠ .ldDT x :=
  ⟨⟨_, rfl⟩, by decide⟩
/-- O35, O44: a step from reset, and one that draws. -/
theorem witness_StepFromReset :
    (∃ t, step State.reset = .next t) ∧ ∃ t, step (State.reset.placeWord 0xCA0F#16) = .next t := ⟨⟨_, rfl⟩, _, rfl⟩
/-- O36: an unguarded and a guarded PC, each with an instruction that answers. -/
theorem witness_StepRunsDecodedInstruction :
    (State.reset.fault = none ∧ 512 = (if 4095 ≤ State.reset.pc.toNat then 512 else State.reset.pc.toNat) ∧
      decode (State.reset.mem.read 512 ++ State.reset.mem.read 513) = .nop 0 ∧
      ∃ t, exec (.nop 0) { State.reset with pc := BitVec.ofNat 16 512 } = .next t) ∧
    (let s := { State.reset with pc := 4095 }
     s.fault = none ∧ 512 = (if 4095 ≤ s.pc.toNat then 512 else s.pc.toNat)) :=
  ⟨⟨by decide, by decide, by decide, _, rfl⟩, by decide⟩
/-- O38: a guarded step without a fault, and one that faults. -/
theorem witness_FetchGuardContinuesAt512 :
    let s := { State.reset with pc := 4095 }
    let f := s.placeWord 0x00EE#16
    (s.fault = none ∧ 4095 ≤ s.pc.toNat ∧ ∃ t, step { s with pc := 512#16 } = .next t ∧ t.fault = none) ∧
    (f.fault = none ∧ 4095 ≤ f.pc.toNat ∧ ∃ t, step { f with pc := 512#16 } = .next t ∧ t.fault ≠ none) :=
  ⟨⟨by decide, by decide, _, rfl, by decide⟩, by decide, by decide, _, rfl, by decide⟩
/-- O40: a halted core and an operation that is no Reset. -/
theorem witness_HaltedUntilReset :
    (∃ r, halted.fault = some r) ∧ (∀ seed, HostOp.writeTimer .dt 5 ≠ .reset seed) ∧
    ∃ t reply, hostDo (.writeTimer .dt 5) halted = .next (t, reply) :=
  ⟨⟨_, rfl⟩, (fun _ h => by cases h), _, _, rfl⟩
/-- O41: steps that take each of the three faults. -/
theorem witness_FaultsArePrecise :
    let a := State.reset.placeWord 0x00EE#16
    let b := ({ State.reset with sp := 16 }).placeWord 0x2300#16
    let c := atTop.placeWord 0xF155#16
    (a.fault = none ∧ ∃ t, step a = .next t ∧ t.fault ≠ none) ∧
    (b.fault = none ∧ ∃ t, step b = .next t ∧ t.fault ≠ none) ∧
    (c.fault = none ∧ ∃ t, step c = .next t ∧ t.fault ≠ none) :=
  ⟨⟨by decide, _, rfl, by decide⟩, ⟨by decide, _, rfl, by decide⟩, by decide, _, rfl, by decide⟩
/-- O42: a step without a fault, and one that faults. -/
theorem witness_PcAfterEveryStep :
    (State.reset.fault = none ∧ ∃ t, step State.reset = .next t ∧ t.fault = none) ∧
    ((State.reset.placeWord 0x00EE#16).fault = none ∧
      ∃ t, step (State.reset.placeWord 0x00EE#16) = .next t ∧ t.fault ≠ none) :=
  ⟨⟨by decide, _, rfl, by decide⟩, by decide, _, rfl, by decide⟩
/-- O43: the spin at 512, and one in the last two bytes of memory. -/
theorem witness_SpinIsFixedPoint :
    (State.reset.placeWord 0x1200#16).atSpin = true ∧ (State.reset.placeWord 0x1200#16).mem.wf ∧
    ({ State.reset with pc := 4094 }.placeWord 0x1FFE#16).atSpin = true := by decide
/-- O45: an instruction that writes memory and one that faults. -/
theorem witness_InstructionsWriteOnlyTheirState :
    (State.reset.mem.wf ∧ ∃ t, exec (.stRegs 0xF#4) State.reset = .next t) ∧
    (atTop.mem.wf ∧ ∃ t, exec (.stRegs 0xF#4) atTop = .next t) := ⟨⟨by decide, _, rfl⟩, by decide, _, rfl⟩
/-- O47, O48: a running, a nested and a halted state of the invariant, each with its step. -/
theorem witness_StepKeepsInvariant :
    (State.reset.Inv ∧ ∃ t, step State.reset = .next t) ∧ (called.Inv ∧ ∃ t, step called = .next t) ∧
    (halted.Inv ∧ ∃ t, step halted = .next t) :=
  ⟨⟨reset_inv, _, rfl⟩, ⟨called_inv, _, rfl⟩, halted_inv, _, rfl⟩
/-- O48: a host operation, and a run of the host's. -/
theorem witness_EveryHostRunKeepsInvariant :
    (∃ t reply, hostDo (.load [0x12#8, 0x00#8] 512) State.reset = .next (t, reply)) ∧
    ∃ t, hostRun [.load [0x12#8, 0x00#8] 512, .step 0x0020#16, .writeTimer .dt 9] (State.resetWith 7) = .next t :=
  ⟨⟨_, _, rfl⟩, _, rfl⟩
/-- O50: a load away from the entry point. -/
theorem witness_EntryPointIs512 : ∃ t, (State.resetWith 7).load [0xAA#8] 4095 = .ok t := ⟨_, rfl⟩
/-- O51: the last load that fits and the first that does not. -/
theorem witness_LoadIsAllOrNothing :
    State.reset.mem.wf ∧ [0xAA#8].length + 4095 ≤ 4096 ∧ 4096 < [0xAA#8].length + 4096 := by decide
/-- O54: a no-operation and an instruction. -/
theorem witness_DecodeOfEncode :
    Instr.wellFormed (.nop 0x0000#16) = true ∧ Instr.wellFormed (.drw 0xF#4 0xF#4 0xF#4) = true := by decide

/-- O60: a run that ends after two steps, with a timer write between them. -/
theorem witness_RunEndIsFirstSpin :
    ∃ t, runEnd [.step 0, .writeTimer .dt 9, .step 0x0020#16] (poke 512 [0x60#8, 0x05#8, 0x12#8, 0x02#8] State.reset) =
      some t := ⟨_, rfl⟩

end Sys2Proof.Tests
end

section
/-! The instruction fetch as a number (spec/20_memory.md R52). -/

namespace Sys2Proof

/-- Two bytes assembled most significant first, as a number. -/
theorem assemble_toNat (high low : Byte) : (assemble high low).toNat = high.toNat * 256 + low.toNat := by
  have hlow : low.toNat < 2 ^ 8 := low.isLt
  rw [assemble, BitVec.toNat_append, ← Nat.shiftLeft_add_eq_or_of_lt hlow, Nat.shiftLeft_eq]

namespace Machine

/-- The word fetched at an address, as a number: the byte there is the high one, the next byte the low one. -/
theorem Memory.fetch16_toNat (m : Memory) (a : Nat) :
    (m.fetch16 a).toNat = (m.read a).toNat * 256 + (m.read (a + 1)).toNat :=
  assemble_toNat (m.read a) (m.read (a + 1))

/-- Settles O37: the opcode is the word fetched at the guarded PC, which is at most 4094. -/
theorem fetchIsBigEndian : Obligations.FetchIsBigEndian := by
  intro s
  exact ⟨s.mem.fetch16_toNat (fetchAddr s.pc).toNat, Nat.succ_le_succ (fetchAddr_le s.pc)⟩

end Machine

end Sys2Proof
end

section
/-! What the flow instructions leave unchanged, and what each answers (spec/40_flow.md R100, R101, R104). -/

namespace Sys2Proof.Machine

variable (s : State)

/-! ## Frames of the flow operations -/

/-- Nothing changed, so nothing outside the frame did. -/
theorem Frame.refl (m : MayWrite) : Frame m s s where
  reg _ _ := rfl
  index _ := rfl
  dt _ := rfl
  st := rfl
  stack _ := ⟨rfl, rfl⟩
  byte _ _ := rfl
  pixel _ _ _ := rfl
  fault _ := rfl
  rng _ := rfl
  keys := rfl

/-- PC is outside every frame, so a write to PC leaves the frame as it is. -/
theorem Frame.jump {m : MayWrite} {s t : State} (h : Frame m s t) (w : Word) : Frame m s (t.jump w) := { h with }

/-- Pop writes the stack's count and nothing else. -/
theorem Frame.pop {w : Word} {t : State} (h : s.pop = some (w, t)) : Frame { stack := True } s t := by
  obtain ⟨-, -, -, rfl⟩ := s.pop_eq_some.mp h
  exact { Frame.refl s {} with stack := fun hs => absurd trivial hs }

/-! ## What the flow instructions answer -/

theorem exec_jp (nnn : Addr12) : exec (.jp nnn) s = .next (s.jump (addrOperand nnn)) := rfl

theorem exec_nop (w : Word) : exec (.nop w) s = .next s.advance := rfl

/-- `RET` with an entry to pop jumps to it. -/
theorem exec_ret_of_pop {w : Word} {t : State} (h : s.pop = some (w, t)) : exec .ret s = .next (t.jump w) := by
  rw [exec, execRet, h]

/-- `RET` with nothing to pop takes `StackUnderflow`. -/
theorem exec_ret_of_empty (h : s.sp.val = 0) : exec .ret s = .next (s.raise .stackUnderflow .ret 0) := by
  rw [exec, execRet, s.pop_eq_none.mpr h]

/-! ## Addresses -/

@[simp] theorem addrOperand_toNat (nnn : Addr12) : (addrOperand nnn).toNat = nnn.toNat :=
  BitVec.toNat_setWidth_of_le (by decide)

/-- The fetch guard sends a PC of 4095 or more to 512. -/
theorem fetchAddr_of_ge {pc : Word} (h : 4095 ≤ pc.toNat) : (fetchAddr pc).toNat = 512 := by
  rw [fetchAddr, if_pos h]; rfl

/-- The newest entry in use is an address a CALL pushed. -/
theorem State.StackOk.newest {s : State} (h : s.StackOk) (hsp : 0 < s.sp.val) (hlt : s.sp.val - 1 < 16) :
    2 ≤ s.stack[s.sp.val - 1].toNat ∧ s.stack[s.sp.val - 1].toNat ≤ 4096 :=
  h ⟨s.sp.val - 1, hlt⟩ (by simp only; omega)

/-! ## JP and RET -/

/-- Settles O1: JP is one write to PC, of the zero-extended address. -/
theorem jumpSetsPcToNnn : Obligations.JumpSetsPcToNnn := by
  intro nnn s
  have hword : 0x1000#16 ||| nnn.setWidth 16 = encodeA 1 nnn := encodeA_or 1 nnn
  refine ⟨by simp [hword, decode], _, exec_jp s nnn, addrOperand_toNat nnn, (Frame.refl s {}).jump _, ?_, ?_⟩
  · intro hpc
    have hself : addrOperand nnn = s.pc := BitVec.eq_of_toNat_eq ((addrOperand_toNat nnn).trans hpc.symm)
    rw [hself]; rfl
  · rintro rfl
    exact fetchAddr_of_ge (pc := addrOperand 0xFFF#12) (by decide)

/-- Settles O4: RET jumps to what Pop gives, or takes the fault where Pop gives nothing. -/
theorem retPopsNewestEntry : Obligations.RetPopsNewestEntry := by
  intro s
  refine ⟨by decide, fun hsp => ?_, fun hsp => ⟨_, exec_ret_of_empty s hsp, rfl, rfl⟩⟩
  have hlt : s.sp.val - 1 < 16 := by omega
  have hpop := s.pop_eq_some.mpr ⟨hlt, by omega, rfl, rfl⟩
  refine ⟨_, exec_ret_of_pop s hpop, ?_, rfl, ?_, (Frame.pop s hpop).jump _, fun hinv => hinv.stack.newest hsp hlt,
    fetchAddr_of_ge⟩
  · exact Nat.sub_add_cancel hsp
  · intro k hk
    simp [← hk]

end Sys2Proof.Machine
end

section
/-! Words that no row of the opcode map matches (spec/30_encoding.md R84, R85, R87; spec/40_flow.md R104). -/

namespace Sys2Proof

/-! ## The default row -/

/-- The rows select the default rule R104 exactly when none of them, each of another rule, is selected. -/
theorem ruleOfRows_eq_default {rows : List OpcodeRow} (hrule : ∀ row ∈ rows, row.rule ≠ 104) (w : Word) :
    ruleOfRows rows w = 104 ↔ ∀ row ∈ rows, w &&& row.mask ≠ row.matchBits := by
  induction rows with
  | nil => simp [ruleOfRows]
  | cons r rows ih =>
    obtain ⟨hr, hrows⟩ := List.forall_mem_cons.mp hrule
    rw [ruleOfRows, List.forall_mem_cons, ← ih hrows]
    by_cases hsel : w &&& r.mask = r.matchBits <;> simp [OpcodeRow.selects, hsel, hr]

/-- The opcode map selects the default rule exactly when no row matches. -/
theorem selectedRule_eq_default (w : Word) :
    selectedRule w = 104 ↔ ∀ row ∈ opcodeMap, w &&& row.mask ≠ row.matchBits :=
  ruleOfRows_eq_default (by decide) w

/-- No row matches a word of the unrecognized space. -/
theorem no_row_of_unrecognized {w : Word} (h : unrecognized w = true) :
    ∀ row ∈ opcodeMap, w &&& row.mask ≠ row.matchBits :=
  (selectedRule_eq_default w).mp (Laws.OpcodeRow.nop w h)

/-- A word for which the opcode map selects the default rule is in the unrecognized space: group by group, where group
8 (the third case) needs the nine low nibbles with a row taken from the sixteen. -/
theorem unrecognized_of_selectedRule {w : Word} (h : selectedRule w = 104) : unrecognized w = true := by
  simp only [selectedRule_eq, ite_eq_iff, Nat.reduceEqDiff, and_false, false_or, and_true] at h
  rw [unrecognized_eq]
  have hgroup := nibble_cases (fieldG w)
  split
  case h_3 =>
    have hn := nibble_cases (fieldN w)
    simp_all
  all_goals simp_all

/-- The dispatch makes a word of the unrecognized space the no-operation that keeps the word. -/
theorem decode_eq_nop_of_unrecognized {w : Word} (h : unrecognized w = true) : decode w = .nop w := by
  rw [unrecognized_eq] at h
  split at h
  case h_1 => simp_all [decode, decode0]
  case h_2 => simp_all [decode]
  case h_3 hg =>
    simp only [List.contains_iff_mem, List.mem_cons, List.not_mem_nil, or_false] at h
    rcases h with hn | hn | hn | hn | hn | hn | hn <;> simp [decode, decode8, hg, hn]
  case h_4 => simp_all [decode]
  case h_5 => simp_all [decode, decodeE_eq]
  case h_6 => simp_all [decode, decodeF_eq]
  case h_7 => cases h

/-- A word that no row of the opcode map matches decodes to the no-operation that keeps it. -/
theorem decode_eq_nop_of_no_row {w : Word} (h : ∀ row ∈ opcodeMap, w &&& row.mask ≠ row.matchBits) :
    decode w = .nop w :=
  decode_eq_nop_of_unrecognized (unrecognized_of_selectedRule ((selectedRule_eq_default w).mpr h))

/-! ## The unrecognized words R104 names -/

/-- FX07, FX0A and FX18. -/
theorem unrecognized_timerRead_keyWait_soundLoad (x : Nibble) {nn : Byte} (h : nn ∈ [0x07#8, 0x0A#8, 0x18#8]) :
    unrecognized (encodeXI 15 x nn) = true := by
  rw [unrecognized_eq, fieldG_encodeXI, fieldNN_encodeXI]
  simp only [List.mem_cons, List.not_mem_nil, or_false] at h
  rcases h with rfl | rfl | rfl <;> rfl

/-- Every 0NNN but 00E0 and 00EE. -/
theorem unrecognized_group0 {nnn : Addr12} (hcls : nnn ≠ 0x0E0#12) (hret : nnn ≠ 0x0EE#12) :
    unrecognized (encodeA 0 nnn) = true := by
  have hne : ∀ {m}, nnn ≠ m → encodeA 0 nnn ≠ encodeA 0 m := fun h e => h (by simpa using congrArg fieldNNN e)
  rw [unrecognized_eq, fieldG_encodeA]
  simpa using ⟨hne hcls, hne hret⟩

namespace Machine

/-- Settles O7: what no row matches is the unrecognized space, where the dispatch ends in the no-operation. -/
theorem unrecognizedOpcodeIsNop : Obligations.UnrecognizedOpcodeIsNop := by
  refine ⟨fun w s hrows => ⟨decode_eq_nop_of_no_row hrows, _, exec_nop s w, rfl, (Frame.refl s {}).jump _⟩, ?_, ?_⟩
  · intro x nn hnn
    have hword : 0xF000#16 ||| x.setWidth 16 <<< 8 ||| nn.setWidth 16 = encodeXI 15 x nn := encodeXI_or 15 x nn
    rw [hword]
    exact no_row_of_unrecognized (unrecognized_timerRead_keyWait_soundLoad x hnn)
  · intro nnn hcls hret
    have hword : nnn.setWidth 16 = encodeA 0 nnn := BitVec.zero_or.symm.trans (encodeA_or 0 nnn)
    rw [hword]
    exact no_row_of_unrecognized (unrecognized_group0 hcls hret)

end Machine

end Sys2Proof
end

section
/-! The skips on register values: what each answers, where PC is after it, and the words next to the register skips
that are no-operations (spec/41_skip.md R110 to R114, spec/30_encoding.md R86). -/

namespace Sys2Proof

/-- 5XYN and 9XYN with a low nibble that is not 0 are unrecognized. -/
theorem unrecognized_registerSkip_nibble {g n : Nibble} (hg : g = 5 ∨ g = 9) (hn : n ≠ 0) (x y : Nibble) :
    unrecognized (encodeXY g x y n) = true := by
  rw [unrecognized_eq, fieldG_encodeXY, fieldN_encodeXY]
  rcases hg with rfl | rfl <;> exact bne_iff_ne.mpr hn

namespace Machine

variable (s : State)

/-! ## What the skips answer -/

theorem exec_seImm (x : Nibble) (nn : Byte) : exec (.seImm x nn) s = .next (s.skipIf (s.getV x == nn)) := rfl

theorem exec_sneImm (x : Nibble) (nn : Byte) : exec (.sneImm x nn) s = .next (s.skipIf (s.getV x != nn)) := rfl

theorem exec_seReg (x y : Nibble) : exec (.seReg x y) s = .next (s.skipIf (s.getV x == s.getV y)) := rfl

theorem exec_sneReg (x y : Nibble) : exec (.sneReg x y) s = .next (s.skipIf (s.getV x != s.getV y)) := rfl

/-! ## What a skip leaves behind -/

/-- Either way a skip is one write to PC (R114), so it leaves the frame as it is. -/
theorem Frame.skipIf {m : MayWrite} {s t : State} (h : Frame m s t) (c : Bool) : Frame m s (t.skipIf c) := by
  cases c
  case false => exact h.jump (t.pc + 2)
  case true => exact h.jump (t.pc + 4)

theorem State.skipIf_beq_pc (a b : Byte) : (s.skipIf (a == b)).pc = s.pc + (if a = b then 4 else 2) := by
  simp only [State.skipIf_pc, beq_iff_eq]

theorem State.skipIf_bne_pc (a b : Byte) : (s.skipIf (a != b)).pc = s.pc + (if a = b then 2 else 4) := by
  simp only [State.skipIf_pc, bne_iff_ne, ne_eq, ite_not]

/-! ## SE and SNE -/

/-- Settles O8: each answers one skip, taken on equality for SE and on difference for SNE. -/
theorem skipOnImmediate : Obligations.SkipOnImmediate := by
  intro x nn s
  have hse : 0x3000#16 ||| x.setWidth 16 <<< 8 ||| nn.setWidth 16 = encodeXI 3 x nn := encodeXI_or 3 x nn
  have hsne : 0x4000#16 ||| x.setWidth 16 <<< 8 ||| nn.setWidth 16 = encodeXI 4 x nn := encodeXI_or 4 x nn
  exact ⟨by simp [hse, decode], by simp [hsne, decode],
    ⟨_, exec_seImm s x nn, s.skipIf_beq_pc _ _, (Frame.refl s {}).skipIf _⟩,
    ⟨_, exec_sneImm s x nn, s.skipIf_bne_pc _ _, (Frame.refl s {}).skipIf _⟩⟩

/-- Settles O9: as O8 for two registers; a low nibble that is not 0 leaves the rows of both and is unrecognized. -/
theorem skipOnRegisters : Obligations.SkipOnRegisters := by
  intro x y s
  have hse : 0x5000#16 ||| x.setWidth 16 <<< 8 ||| y.setWidth 16 <<< 4 = encodeXY 5 x y 0 := encodeXY_or 5 x y 0
  have hsne : 0x9000#16 ||| x.setWidth 16 <<< 8 ||| y.setWidth 16 <<< 4 = encodeXY 9 x y 0 := encodeXY_or 9 x y 0
  refine ⟨by simp [hse, decode], by simp [hsne, decode], fun n hn => ?_,
    ⟨_, exec_seReg s x y, s.skipIf_beq_pc _ _, (Frame.refl s {}).skipIf _⟩,
    ⟨_, exec_sneReg s x y, s.skipIf_bne_pc _ _, (Frame.refl s {}).skipIf _⟩⟩
  have hnop5 := decode_eq_nop_of_unrecognized (unrecognized_registerSkip_nibble (.inl rfl) hn x y)
  have hnop9 := decode_eq_nop_of_unrecognized (unrecognized_registerSkip_nibble (.inr rfl) hn x y)
  rw [← encodeXYN_or] at hnop5 hnop9
  exact ⟨congrArg Instr.rule hnop5, congrArg Instr.rule hnop9⟩

end Machine

end Sys2Proof
end

section
/-! The instructions that write one register and no flag: what each answers, and what one register write leaves behind
(spec/42_alu.md R120 to R125). -/

namespace Sys2Proof.Machine

variable (s : State)

/-! ## What the loads, the immediate addition and the logic instructions answer -/

theorem exec_ldImm (x : Nibble) (nn : Byte) : exec (.ldImm x nn) s = .next (s.setV x nn).advance := rfl

theorem exec_addImm (x : Nibble) (nn : Byte) : exec (.addImm x nn) s = .next (s.setV x (s.getV x + nn)).advance := rfl

theorem exec_ldReg (x y : Nibble) : exec (.ldReg x y) s = .next (s.setV x (s.getV y)).advance := rfl

theorem exec_orReg (x y : Nibble) : exec (.orReg x y) s = .next (s.setV x (s.getV x ||| s.getV y)).advance := rfl

theorem exec_andReg (x y : Nibble) : exec (.andReg x y) s = .next (s.setV x (s.getV x &&& s.getV y)).advance := rfl

theorem exec_xorReg (x y : Nibble) : exec (.xorReg x y) s = .next (s.setV x (s.getV x ^^^ s.getV y)).advance := rfl

/-! ## What a register write leaves behind -/

/-- A write to a register the frame lists leaves the frame as it is. -/
theorem Frame.setV {m : MayWrite} {s t : State} (h : Frame m s t) {x : Nibble} (hx : m.reg x) (b : Byte) :
    Frame m s (t.setV x b) :=
  { h with
    reg := fun y hy => by
      have hne : y ≠ x := fun e => hy (e ▸ hx)
      rw [State.setV_getV, if_neg hne, h.reg y hy] }

/-- One register write and the advance of PC change nothing but PC and that register. -/
theorem Frame.setV_advance (x : Nibble) (b : Byte) : Frame { reg := fun r => r = x } s (s.setV x b).advance :=
  ((Frame.refl s _).setV rfl b).jump _

theorem State.setV_advance_getV_same (x : Nibble) (b : Byte) : (s.setV x b).advance.getV x = b := by simp

/-! ## Loads -/

/-- Settles O10: one register write, of the immediate. -/
theorem loadImmediate : Obligations.LoadImmediate := by
  intro x nn s
  have hword : 0x6000#16 ||| x.setWidth 16 <<< 8 ||| nn.setWidth 16 = encodeXI 6 x nn := encodeXI_or 6 x nn
  exact ⟨by simp [hword, decode], _, exec_ldImm s x nn, s.setV_advance_getV_same x nn, rfl, Frame.setV_advance s x nn⟩

/-- Settles O12: one register write, of the other register's value. -/
theorem copyRegister : Obligations.CopyRegister := by
  intro x y s
  have hword : 0x8000#16 ||| x.setWidth 16 <<< 8 ||| y.setWidth 16 <<< 4 = encodeXY 8 x y 0 := encodeXY_or 8 x y 0
  exact ⟨by simp [hword, decode, decode8], _, exec_ldReg s x y, s.setV_advance_getV_same x _, rfl,
    Frame.setV_advance s x _⟩

/-! ## Addition of an immediate -/

/-- Settles O11: one register write, of the sum as bytes add, which is the sum modulo 256. -/
theorem addImmediate : Obligations.AddImmediate := by
  intro x nn s
  have hword : 0x7000#16 ||| x.setWidth 16 <<< 8 ||| nn.setWidth 16 = encodeXI 7 x nn := encodeXI_or 7 x nn
  refine ⟨by simp [hword, decode], _, exec_addImm s x nn, ?_, rfl, Frame.setV_advance s x _⟩
  rw [State.setV_advance_getV_same, BitVec.toNat_add]

/-! ## Logic -/

/-- Settles O13: one register write each, of the bitwise or, and, exclusive or of the operands. -/
theorem logicOperations : Obligations.LogicOperations := by
  intro x y s
  have hor : 0x8001#16 ||| x.setWidth 16 <<< 8 ||| y.setWidth 16 <<< 4 = encodeXY 8 x y 1 := encodeXY_or 8 x y 1
  have hand : 0x8002#16 ||| x.setWidth 16 <<< 8 ||| y.setWidth 16 <<< 4 = encodeXY 8 x y 2 := encodeXY_or 8 x y 2
  have hxor : 0x8003#16 ||| x.setWidth 16 <<< 8 ||| y.setWidth 16 <<< 4 = encodeXY 8 x y 3 := encodeXY_or 8 x y 3
  refine ⟨by simp [hor, decode, decode8], by simp [hand, decode, decode8], by simp [hxor, decode, decode8],
    ⟨_, exec_orReg s x y, rfl, Frame.setV_advance s x _, fun k => ?_⟩,
    ⟨_, exec_andReg s x y, rfl, Frame.setV_advance s x _, fun k => ?_⟩,
    ⟨_, exec_xorReg s x y, rfl, Frame.setV_advance s x _, fun k => ?_⟩⟩
  · rw [State.setV_advance_getV_same, BitVec.getLsbD_or]
  · rw [State.setV_advance_getV_same, BitVec.getLsbD_and]
  · rw [State.setV_advance_getV_same, BitVec.getLsbD_xor]

end Sys2Proof.Machine
end

section
/-! The instructions that write I or store through I: what each answers, and what a write to I, a store and a latched
fault leave behind (spec/43_index_memory.md R140, R142, R143). -/

namespace Sys2Proof.Machine

variable (s : State)

/-! ## What LD I, LD F and LD B answer -/

theorem exec_ldI (nnn : Addr12) : exec (.ldI nnn) s = .next (s.setI (addrOperand nnn)).advance := rfl

theorem exec_ldF (x : Nibble) :
    exec (.ldF x) s = .next (s.setI (BitVec.ofNat 16 ((s.getV x).toNat * 5))).advance := rfl

/-- `LD B, Vx` takes the fault where the last of its three bytes lies beyond memory. -/
theorem exec_ldB_outOfBounds (x : Nibble) (h : 4096 ≤ s.i.toNat + 2) :
    exec (.ldB x) s = .next (s.raise .outOfBoundsMemoryAccess (.ldB x) s.firstOutOfBounds) := by
  have hout : s.outOfBounds (dataBytes (.ldB x)) = true :=
    (s.outOfBounds_iff 3).mpr ⟨by decide, Nat.lt_succ_of_le h⟩
  rw [exec, execLdB, withData_outOfBounds s hout]

/-! ## What a write to I, a store and a latched fault leave behind -/

/-- A write to I leaves a frame that lists I as it is. -/
theorem Frame.setI {m : MayWrite} {s t : State} (h : Frame m s t) (hi : m.index) (w : Word) : Frame m s (t.setI w) :=
  { h with index := fun hn => absurd hi hn }

/-- One write to I and the advance of PC change nothing but PC and I. -/
theorem Frame.setI_advance (w : Word) : Frame { index := True } s (s.setI w).advance :=
  ((Frame.refl s _).setI trivial w).jump _

/-- A latched fault leaves a frame that lists the latch as it is. -/
theorem Frame.raise {m : MayWrite} {s t : State} (h : Frame m s t) (hf : m.fault) (kind : FaultKind) (i : Instr)
    (info : Nat) : Frame m s (t.raise kind i info) :=
  { h with fault := fun hn => absurd hf hn }

/-- A store into a rising memory, of bytes the frame lists, leaves the frame as it is. -/
theorem Frame.storeBytes {m : MayWrite} {s t : State} (h : Frame m s t) (hmem : t.mem.Pairwise (fun c d => c.1 < d.1))
    {base n : Nat} (hbyte : ∀ a, base ≤ a ∧ a < base + n → m.byte a) (f : Nat → Byte) :
    Frame m s (t.storeBytes base f n) :=
  { h with
    byte := fun a ha => by
      have hout : ¬ (base ≤ a ∧ a < base + n) := fun hin => ha (hbyte a hin)
      rw [State.storeBytes_mem, Memory.read_storeBytes hmem, if_neg hout, h.byte a ha] }

/-- One store and the advance of PC change nothing but PC and the bytes of the range. -/
theorem Frame.storeBytes_advance (hmem : s.mem.wf) (base : Nat) (f : Nat → Byte) (n : Nat) :
    Frame { byte := fun a => base ≤ a ∧ a < base + n } s (s.storeBytes base f n).advance :=
  ((Frame.refl s _).storeBytes hmem.1 (fun _ ha => ha) f).jump _

/-- Byte `k` of a store is read back at `base + k`. -/
theorem State.storeBytes_advance_read (hmem : s.mem.wf) (base : Nat) (f : Nat → Byte) {n k : Nat} (hk : k < n) :
    (s.storeBytes base f n).advance.mem.read (base + k) = f k := by
  have hin : base ≤ base + k ∧ base + k < base + n := by omega
  rw [State.advance_mem, State.storeBytes_mem, Memory.read_storeBytes hmem.1, if_pos hin, Nat.add_sub_cancel_left]

/-! ## Decimal digits -/

/-- The digits of a byte fit a byte: hundreds, tens and ones, as numbers. -/
theorem decimalDigit_toNat (b : Byte) :
    (decimalDigit b 0).toNat = b.toNat / 100 ∧ (decimalDigit b 1).toNat = b.toNat / 10 % 10 ∧
      (decimalDigit b 2).toNat = b.toNat % 10 := by
  have hb : b.toNat < 256 := b.isLt
  simp only [decimalDigit, BitVec.toNat_ofNat]
  omega

/-! ## LD I, LD F and LD B -/

/-- Settles O19: one write to I, of the zero-extended address. -/
theorem loadIndex : Obligations.LoadIndex := by
  intro nnn s
  have hword : 0xA000#16 ||| nnn.setWidth 16 = encodeA 10 nnn := encodeA_or 10 nnn
  exact ⟨by simp [hword, decode], _, exec_ldI s nnn, addrOperand_toNat nnn, rfl, Frame.setI_advance s _⟩

/-- Settles O21: one write to I, of a product that fits 16 bits and in which memory has no part. -/
theorem fontAddress : Obligations.FontAddress := by
  intro x s
  have hword : 0xF029#16 ||| x.setWidth 16 <<< 8 = encodeXI 15 x 0x29 := encodeXF_or 15 x 0x29
  have hbyte : (s.getV x).toNat < 256 := (s.getV x).isLt
  have hi : (BitVec.ofNat 16 ((s.getV x).toNat * 5)).toNat = (s.getV x).toNat * 5 := by
    rw [BitVec.toNat_ofNat, Nat.mod_eq_of_lt (by omega)]
  refine ⟨by simp [hword, decode, decodeF], _, exec_ldF s x, hi, ?_, rfl, Frame.setI_advance s _, fun _ => rfl⟩
  rw [State.advance_i, State.setI_i, hi]
  omega

/-- Settles O22: in bounds one store, of the three digits at I; else the latch alone is written. -/
theorem storeDecimalDigits : Obligations.StoreDecimalDigits := by
  intro x s hmem
  have hword : 0xF033#16 ||| x.setWidth 16 <<< 8 = encodeXI 15 x 0x33 := encodeXF_or 15 x 0x33
  refine ⟨by simp [hword, decode, decodeF], fun hin => ?_, fun hout => ?_⟩
  · obtain ⟨hundreds, tens, ones⟩ := decimalDigit_toNat (s.getV x)
    have hread (k : Nat) (hk : k < 3) :=
      congrArg BitVec.toNat (s.storeBytes_advance_read hmem s.i.toNat (decimalDigit (s.getV x)) hk)
    exact ⟨_, exec_ldB_inBounds s x hin, (hread 0 (by decide)).trans hundreds, (hread 1 (by decide)).trans tens,
      (hread 2 (by decide)).trans ones, rfl, Frame.storeBytes_advance s hmem _ _ 3⟩
  · exact ⟨_, _, exec_ldB_outOfBounds s x hout, rfl, rfl, rfl, rfl, (Frame.refl s _).raise trivial _ _ _⟩

end Sys2Proof.Machine
end

section
/-! The framebuffer: what CLS answers, which instructions write the framebuffer, and that DRW turns no pixel off
(spec/44_display.md R150, R151). -/

namespace Sys2Proof

/-- 0XE0 with X other than 0 is unrecognized: group 0 is matched on the whole opcode (R86). -/
theorem unrecognized_cls_nibble {x : Nibble} (hx : x ≠ 0) : unrecognized (encodeXI 0 x 0xE0) = true := by
  have hne (nn : Byte) : encodeXI 0 x 0xE0 ≠ encodeXI 0 0 nn := fun e => hx (by simpa using congrArg fieldX e)
  rw [unrecognized_eq, fieldG_encodeXI]
  simpa using ⟨hne 0xE0, hne 0xEE⟩

namespace Machine

variable (s : State)

/-! ## What CLS answers -/

theorem exec_cls : exec .cls s = .next (s.setFB FrameBuffer.off).advance := rfl

/-- A write to the framebuffer leaves a frame that lists every pixel as it is. -/
theorem Frame.setFB {m : MayWrite} {s t : State} (h : Frame m s t) (hp : ∀ r c, m.pixel r c) (fb : FrameBuffer) :
    Frame m s (t.setFB fb) :=
  { h with pixel := fun r c hn => absurd (hp r c) hn }

/-! ## What CALL answers -/

/-- `CALL NNN` with room for an entry pushes the address after it and jumps. -/
theorem exec_call_of_push (nnn : Addr12) {t : State} (h : s.push (s.pc + 2) = some t) :
    exec (.call nnn) s = .next (t.jump (addrOperand nnn)) := by
  rw [exec, execCall, h]

/-- `CALL NNN` with 16 entries in use takes `StackOverflow`. -/
theorem exec_call_of_full (nnn : Addr12) (h : s.sp.val = 16) :
    exec (.call nnn) s = .next (s.raise .stackOverflow (.call nnn) s.sp.val) := by
  rw [exec, execCall, s.push_eq_none.mpr h]

/-! ## Which instructions write the framebuffer -/

variable {s} {t : State}

theorem exec_ret_fb (h : exec .ret s = .next t) : t.fb = s.fb := by
  cases hpop : s.pop with
  | none =>
    rw [← Host.Outcome.next.inj ((exec_ret_of_empty s (s.pop_eq_none.mp hpop)).symm.trans h), State.raise_fb]
  | some p =>
    obtain ⟨_, -, -, hp⟩ := s.pop_eq_some.mp hpop
    rw [← Host.Outcome.next.inj ((exec_ret_of_pop s hpop).symm.trans h), State.jump_fb, hp]

theorem exec_call_fb {nnn : Addr12} (h : exec (.call nnn) s = .next t) : t.fb = s.fb := by
  cases hpush : s.push (s.pc + 2) with
  | none =>
    rw [← Host.Outcome.next.inj ((exec_call_of_full s nnn (s.push_eq_none.mp hpush)).symm.trans h), State.raise_fb]
  | some u =>
    obtain ⟨_, hu⟩ := s.push_eq_some.mp hpush
    rw [← Host.Outcome.next.inj ((exec_call_of_push s nnn hpush).symm.trans h), State.jump_fb, hu]

/-- A data access whose body keeps the framebuffer keeps it also where it faults. -/
theorem withData_fb {i : Instr} {body : State → State} (hbody : (body s).fb = s.fb)
    (h : withData i body s = .next t) : t.fb = s.fb := by
  obtain ⟨-, rfl⟩ | ⟨-, rfl⟩ := withData_cases s h
  · exact s.raise_fb ..
  · exact hbody

/-- No instruction but CLS and DRW writes the framebuffer. -/
theorem exec_fb {i : Instr} (hcls : i ≠ .cls) (hdrw : ∀ x y n, i ≠ .drw x y n) (h : exec i s = .next t) :
    t.fb = s.fb := by
  cases i
  case cls => exact absurd rfl hcls
  case drw x y n => exact absurd rfl (hdrw x y n)
  case ret => exact exec_ret_fb h
  case call nnn => exact exec_call_fb h
  case ldB x =>
    rw [exec, execLdB] at h
    exact withData_fb (by simp) h
  case stRegs x =>
    rw [exec, execStRegs] at h
    exact withData_fb (by simp) h
  case ldRegs x =>
    rw [exec, execLdRegs] at h
    exact withData_fb (by simp) h
  all_goals
    cases Host.Outcome.next.inj h
    simp

/-- DRW turns no pixel off: where it faults it writes the latch alone, and the drawing loop only sets pixels. -/
theorem exec_drw_keeps_pixel_on {x y n : Nibble} (h : exec (.drw x y n) s = .next t) {r : Fin 32} {c : Fin 64}
    (hon : s.pixel r c = true) : t.pixel r c = true := by
  rw [exec, execDrw] at h
  obtain ⟨-, rfl⟩ | ⟨-, rfl⟩ := withData_cases s h
  · exact hon
  · exact (drawRows_pixel _ _ _ _ _ r c).mpr (.inl hon)

/-- Every instruction but CLS keeps the pixels that are on. -/
theorem exec_keeps_pixel_on {i : Instr} (hcls : i ≠ .cls) (h : exec i s = .next t) {r : Fin 32} {c : Fin 64}
    (hon : s.pixel r c = true) : t.pixel r c = true := by
  by_cases hdrw : ∃ x y n, i = .drw x y n
  · obtain ⟨x, y, n, rfl⟩ := hdrw
    exact exec_drw_keeps_pixel_on h hon
  · have hfb : t.fb = s.fb := exec_fb hcls (fun x y n hi => hdrw ⟨x, y, n, hi⟩) h
    rw [State.pixel, hfb]
    exact hon

/-- Settles O29: CLS is one write of the blank framebuffer, 0XE0 is unrecognized, and every other instruction keeps the
pixels that are on. -/
theorem clearScreen : Obligations.ClearScreen := by
  refine ⟨fun s => ⟨by decide, _, exec_cls s, fun r c => by simp, rfl, ?_⟩, fun x hx => ?_,
    fun i s t r c h hon hoff => ?_⟩
  · exact ((Frame.refl s _).setFB (fun _ _ => trivial) _).jump _
  · have hword : 0x00E0#16 ||| x.setWidth 16 <<< 8 = encodeXI 0 x 0xE0 := encodeXF_or 0 x 0xE0
    rw [hword, decode_eq_nop_of_unrecognized (unrecognized_cls_nibble hx)]; rfl
  · by_contra hcls
    exact Bool.false_ne_true (hoff.symm.trans (exec_keeps_pixel_on hcls h hon))

end Machine

end Sys2Proof
end

section
/-! The timers: what LD DT answers, and that every other instruction commutes with a change of both timers, which says
at once that it neither reads nor writes them (spec/45_keypad_timer.md R162, R163). -/

namespace Sys2Proof.Machine

/-- The state with both timers replaced. -/
def State.withTimers (s : State) (d e : Byte) : State := { s with dt := d, st := e }

variable (s : State)

/-! ## What the operations do under other timers -/

@[simp] theorem State.withTimers_dt (d e : Byte) : (s.withTimers d e).dt = d := rfl
@[simp] theorem State.withTimers_st (d e : Byte) : (s.withTimers d e).st = e := rfl

theorem State.withTimers_skipIf (d e : Byte) (c : Bool) :
    (s.withTimers d e).skipIf c = (s.skipIf c).withTimers d e := by
  cases c <;> rfl

theorem State.withTimers_loadRegs (d e : Byte) (base n : Nat) :
    (s.withTimers d e).loadRegs base n = (s.loadRegs base n).withTimers d e := by
  induction n with
  | zero => rfl
  | succ n ih => rw [State.loadRegs, ih]; rfl

theorem State.withTimers_pop (d e : Byte) :
    (s.withTimers d e).pop = s.pop.map fun p => (p.1, p.2.withTimers d e) := by
  unfold State.pop
  by_cases hsp : s.sp.val = 0 <;> simp [hsp, State.withTimers]

theorem State.withTimers_push (d e : Byte) (w : Word) :
    (s.withTimers d e).push w = (s.push w).map fun u => u.withTimers d e := by
  unfold State.push
  by_cases hsp : s.sp.val < 16 <;> simp [hsp, State.withTimers]

/-! ## What the instructions do under other timers -/

variable {s} {t : State}

/-- The bounds check reads no timer, so a data access commutes with a change of the timers where its body does. -/
theorem withData_withTimers {i : Instr} {body : State → State} {d e : Byte}
    (hbody : body (s.withTimers d e) = (body s).withTimers d e) (h : withData i body s = .next t) :
    withData i body (s.withTimers d e) = .next (t.withTimers d e) := by
  obtain ⟨hout, rfl⟩ | ⟨hin, rfl⟩ := withData_cases s h
  · exact withData_outOfBounds (s.withTimers d e) hout
  · rw [← hbody]
    exact withData_inBounds (s.withTimers d e) hin

theorem exec_ret_withTimers (h : exec .ret s = .next t) (d e : Byte) :
    exec .ret (s.withTimers d e) = .next (t.withTimers d e) := by
  cases hpop : s.pop with
  | none =>
    have hsp := s.pop_eq_none.mp hpop
    obtain rfl := Host.Outcome.next.inj ((exec_ret_of_empty s hsp).symm.trans h)
    exact exec_ret_of_empty (s.withTimers d e) hsp
  | some p =>
    obtain rfl := Host.Outcome.next.inj ((exec_ret_of_pop s hpop).symm.trans h)
    exact exec_ret_of_pop (s.withTimers d e) (by rw [State.withTimers_pop, hpop]; rfl)

theorem exec_call_withTimers {nnn : Addr12} (h : exec (.call nnn) s = .next t) (d e : Byte) :
    exec (.call nnn) (s.withTimers d e) = .next (t.withTimers d e) := by
  cases hpush : s.push (s.pc + 2) with
  | none =>
    have hsp := s.push_eq_none.mp hpush
    obtain rfl := Host.Outcome.next.inj ((exec_call_of_full s nnn hsp).symm.trans h)
    exact exec_call_of_full (s.withTimers d e) nnn hsp
  | some u =>
    obtain rfl := Host.Outcome.next.inj ((exec_call_of_push s nnn hpush).symm.trans h)
    exact exec_call_of_push (s.withTimers d e) nnn ((s.withTimers_push d e _).trans (congrArg _ hpush))

/-- Every instruction but LD DT does the same under every value of the timers, and passes the timers on. -/
theorem exec_withTimers {i : Instr} (hi : ∀ x, i ≠ .ldDT x) (h : exec i s = .next t) (d e : Byte) :
    exec i (s.withTimers d e) = .next (t.withTimers d e) := by
  cases i
  case ldDT x => exact absurd rfl (hi x)
  case ret => exact exec_ret_withTimers h d e
  case call nnn => exact exec_call_withTimers h d e
  case ldB x =>
    rw [exec, execLdB] at h ⊢
    exact withData_withTimers rfl h
  case stRegs x =>
    rw [exec, execStRegs] at h ⊢
    exact withData_withTimers rfl h
  case drw x y n =>
    rw [exec, execDrw] at h ⊢
    exact withData_withTimers rfl h
  case ldRegs x =>
    rw [exec, execLdRegs] at h ⊢
    exact withData_withTimers (congrArg State.advance (s.withTimers_loadRegs d e _ _)) h
  case seImm | sneImm | seReg | sneReg | skp | sknp =>
    obtain rfl := Host.Outcome.next.inj h
    exact congrArg Host.Outcome.next (s.withTimers_skipIf d e _)
  all_goals
    obtain rfl := Host.Outcome.next.inj h
    rfl

/-- Every instruction but LD DT keeps both timers: it commutes with writing back the timers it found. -/
theorem exec_keeps_timers {i : Instr} (hi : ∀ x, i ≠ .ldDT x) (h : exec i s = .next t) :
    t.dt = s.dt ∧ t.st = s.st := by
  have hback : t = t.withTimers s.dt s.st :=
    Host.Outcome.next.inj (h.symm.trans (exec_withTimers hi h s.dt s.st))
  rw [hback]
  exact ⟨t.withTimers_dt .., t.withTimers_st ..⟩

/-! ## LD DT -/

theorem exec_ldDT (s : State) (x : Nibble) : exec (.ldDT x) s = .next (s.setDT (s.getV x)).advance := rfl

/-- A write to DT leaves a frame that lists DT as it is. -/
theorem Frame.setDT {m : MayWrite} (h : Frame m s t) (hd : m.dt) (b : Byte) : Frame m s (t.setDT b) :=
  { h with dt := fun hn => absurd hd hn }

/-- No instruction writes ST. -/
theorem exec_st {i : Instr} (h : exec i s = .next t) : t.st = s.st := by
  by_cases hi : ∃ x, i = .ldDT x
  · obtain ⟨x, rfl⟩ := hi
    rw [← Host.Outcome.next.inj ((exec_ldDT s x).symm.trans h), State.advance_st, State.setDT_st]
  · exact (exec_keeps_timers (not_exists.mp hi) h).2

/-- Settles O34: LD DT is one write to DT, and every other instruction commutes with a change of the timers. -/
theorem loadDelayTimer : Obligations.LoadDelayTimer := by
  refine ⟨fun x s => ?_, fun i s t b h => ⟨exec_st h, fun hi => ?_⟩⟩
  · have hword : 0xF015#16 ||| x.setWidth 16 <<< 8 = encodeXI 15 x 0x15 := encodeXF_or 15 x 0x15
    exact ⟨by simp [hword, decode, decodeF], _, exec_ldDT s x, rfl, rfl, ((Frame.refl s _).setDT trivial _).jump _⟩
  · obtain ⟨hdt, hst⟩ := exec_keeps_timers hi h
    have hrun : exec i { s with dt := b } = .next (t.withTimers b s.st) := exec_withTimers hi h b s.st
    exact ⟨hdt, hrun.trans (by rw [← hst]; rfl)⟩

end Sys2Proof.Machine
end

section
/-! Which instructions take a fault, and on what condition: StackUnderflow is RET's, StackOverflow is CALL's, and
OutOfBoundsMemoryAccess belongs to the four instructions that access memory through I (spec/60_exceptions.md R171 to
R173). -/

namespace Sys2Proof.Machine

variable {s t : State}

/-! ## The faults of the stack -/

/-- `RET` takes `StackUnderflow` on the empty stack and no fault elsewhere. -/
theorem exec_ret_fault_cases (h : exec .ret s = .next t) :
    t.fault = s.fault ∨ (s.sp.val = 0 ∧ t = s.raise .stackUnderflow .ret 0) := by
  cases hpop : s.pop with
  | none =>
    have hsp := s.pop_eq_none.mp hpop
    exact .inr ⟨hsp, Host.Outcome.next.inj (h.symm.trans (exec_ret_of_empty s hsp))⟩
  | some p =>
    obtain ⟨_, -, -, hp⟩ := s.pop_eq_some.mp hpop
    rw [← Host.Outcome.next.inj ((exec_ret_of_pop s hpop).symm.trans h), State.jump_fault, hp]
    exact .inl rfl

/-- `CALL` takes `StackOverflow` at depth 16 and no fault below. -/
theorem exec_call_fault_cases {nnn : Addr12} (h : exec (.call nnn) s = .next t) :
    t.fault = s.fault ∨ (s.sp.val = 16 ∧ t = s.raise .stackOverflow (.call nnn) s.sp.val) := by
  cases hpush : s.push (s.pc + 2) with
  | none =>
    have hsp := s.push_eq_none.mp hpush
    exact .inr ⟨hsp, Host.Outcome.next.inj (h.symm.trans (exec_call_of_full s nnn hsp))⟩
  | some u =>
    obtain ⟨_, hu⟩ := s.push_eq_some.mp hpush
    rw [← Host.Outcome.next.inj ((exec_call_of_push s nnn hpush).symm.trans h), State.jump_fault, hu]
    exact .inl rfl

/-- Settles O3: at depth 16 nothing can be pushed and CALL writes the latch alone; at depth 15 one entry still goes
above the fifteen in use. -/
theorem callDepthIsSixteen : Obligations.CallDepthIsSixteen := by
  refine fun nnn s => ⟨fun hfull => ⟨_, _, exec_call_of_full s nnn hfull, rfl, rfl, rfl, rfl⟩, fun hlast => ?_⟩
  have hroom : s.sp.val < 16 := by omega
  have hpush := (s.push_eq_some (v := s.pc + 2)).mpr ⟨hroom, rfl⟩
  refine ⟨_, exec_call_of_push s nnn hpush, congrArg Nat.succ hlast, rfl, fun k hk => ?_⟩
  have hne : s.sp.val ≠ k.val := by omega
  exact Vector.getElem_set_ne hroom k.isLt hne

/-! ## The fault of a data access -/

/-- A data access whose body takes no fault takes `OutOfBoundsMemoryAccess` or none. -/
theorem withData_fault_cases {i : Instr} {body : State → State} (hbody : (body s).fault = s.fault)
    (h : withData i body s = .next t) :
    t.fault = s.fault ∨
      (s.outOfBounds (dataBytes i) = true ∧ t = s.raise .outOfBoundsMemoryAccess i s.firstOutOfBounds) := by
  obtain hout | ⟨-, rfl⟩ := withData_cases s h
  · exact .inr hout
  · exact .inl hbody

/-- The three ways an instruction can take a fault; each writes the latch alone. -/
theorem exec_fault_cases {i : Instr} (h : exec i s = .next t) :
    t.fault = s.fault ∨
      (i = .ret ∧ s.sp.val = 0 ∧ t = s.raise .stackUnderflow i 0) ∨
      (∃ nnn, i = .call nnn ∧ s.sp.val = 16 ∧ t = s.raise .stackOverflow i s.sp.val) ∨
      (s.outOfBounds (dataBytes i) = true ∧ t = s.raise .outOfBoundsMemoryAccess i s.firstOutOfBounds) := by
  cases i
  case ret => exact (exec_ret_fault_cases h).imp_right fun hf => .inl ⟨rfl, hf⟩
  case call nnn => exact (exec_call_fault_cases h).imp_right fun hf => .inr (.inl ⟨nnn, rfl, hf⟩)
  case drw | ldB | stRegs | ldRegs =>
    simp only [exec, execDrw, execLdB, execStRegs, execLdRegs] at h
    exact (withData_fault_cases (by simp) h).imp_right fun hf => .inr (.inr hf)
  all_goals
    left
    cases Host.Outcome.next.inj h
    simp

/-- Every instruction some of whose data bytes lie beyond memory takes the fault and writes the latch alone. -/
theorem exec_of_outOfBounds {i : Instr} (h : s.outOfBounds (dataBytes i) = true) :
    exec i s = .next (s.raise .outOfBoundsMemoryAccess i s.firstOutOfBounds) := by
  cases i
  case drw | ldB | stRegs | ldRegs =>
    simp only [exec, execDrw, execLdB, execStRegs, execLdRegs]
    exact withData_outOfBounds s h
  all_goals cases h.symm.trans ((s.inBounds_iff 0).mpr (.inl rfl))

/-- From a state with no fault latched, `OutOfBoundsMemoryAccess` is latched exactly where the bounds check fails. -/
theorem exec_latches_outOfBounds_iff {i : Instr} (hs : s.fault = none) :
    (∃ t r, exec i s = .next t ∧ t.fault = some r ∧ r.kind = .outOfBoundsMemoryAccess) ↔
      s.outOfBounds (dataBytes i) = true := by
  refine ⟨?_, fun hout => ⟨_, _, exec_of_outOfBounds hout, rfl, rfl⟩⟩
  rintro ⟨t, r, h, hr, hkind⟩
  obtain hkeep | ⟨-, -, rfl⟩ | ⟨nnn, -, -, rfl⟩ | ⟨hout, -⟩ := exec_fault_cases h
  · rw [hkeep, hs] at hr
    cases hr
  · cases hr
    cases hkind
  · cases hr
    cases hkind
  · exact hout

/-- The bounds check instruction by instruction, as R173 lists the conditions. -/
theorem State.outOfBounds_dataBytes_iff (s : State) (i : Instr) :
    s.outOfBounds (dataBytes i) = true ↔
      (∃ x y n : Nibble, i = .drw x y n ∧ 1 ≤ n.toNat ∧ 4096 ≤ s.i.toNat + n.toNat - 1) ∨
      (∃ x : Nibble, i = .ldB x ∧ 4096 ≤ s.i.toNat + 2) ∨
      (∃ x : Nibble, (i = .stRegs x ∨ i = .ldRegs x) ∧ 4096 ≤ s.i.toNat + x.toNat) := by
  rw [State.outOfBounds_iff]
  cases i
  case drw x y n =>
    have hlast : 1 ≤ n.toNat ∧ 4096 < s.i.toNat + n.toNat ↔ 1 ≤ n.toNat ∧ 4096 ≤ s.i.toNat + n.toNat - 1 := by
      omega
    simpa [dataBytes] using hlast
  case ldB x =>
    have hlast : 4096 < s.i.toNat + 3 ↔ 4096 ≤ s.i.toNat + 2 := Nat.lt_succ_iff
    simpa [dataBytes] using hlast
  case stRegs x | ldRegs x =>
    have hlast : 4096 < s.i.toNat + (x.toNat + 1) ↔ 4096 ≤ s.i.toNat + x.toNat := Nat.lt_succ_iff
    simpa [dataBytes, regCopyCount] using hlast
  all_goals simp [dataBytes]

/-- A step that latches a fault took it from the instruction it executed. -/
theorem step_fault_from_exec {r : FaultRecord} (hs : s.fault = none) (h : step s = .next t) (hr : t.fault = some r) :
    ∃ u, exec s.fetchInstr s.atFetch = .next u ∧ u.fault = some r := by
  obtain ⟨_, hsome, -⟩ | ⟨-, u, hu, rfl⟩ := step_cases h
  · rw [hs] at hsome
    cases hsome
  · refine ⟨u, hu, ?_⟩
    obtain ⟨-, hsettle⟩ | ⟨r', hu', hsettle⟩ := s.settle_cases u
    · rwa [hsettle] at hr
    · rw [hsettle] at hr
      exact hu'.trans hr

/-- Settles O26: the fault is that of the bounds check, whose condition is R173's, and the step only passes it on. -/
theorem outOfBoundsConditions : Obligations.OutOfBoundsConditions :=
  ⟨fun i s hs => (exec_latches_outOfBounds_iff hs).trans (s.outOfBounds_dataBytes_iff i),
    fun _ _ _ hs h hr _ => step_fault_from_exec hs h hr⟩

end Sys2Proof.Machine
end

section
/-! The entry point after Reset and a Load (spec/70_reset_and_hazards.md R201). -/

namespace Sys2Proof.Machine

variable (s : State)

/-- `Load` succeeds exactly where the bytes fit in memory, and then it stores them and does nothing else. -/
theorem State.load_eq_ok {bytes : List Byte} {origin : Nat} {t : State} :
    s.load bytes origin = .ok t ↔
      bytes.length + origin ≤ 4096 ∧ s.storeBytes origin (fun k => bytes.getD k 0) bytes.length = t := by
  rw [State.load]
  split
  case isTrue hlarge => exact ⟨nofun, fun hfits => absurd hfits.1 (Nat.not_le.mpr hlarge)⟩
  case isFalse hfits => simpa using fun _ => Nat.not_lt.mp hfits

/-- Where the fetch guard does nothing, the opcode is the word at PC. -/
theorem State.opcode_of_le (h : s.pc.toNat ≤ 4094) : s.opcode = s.mem.fetch16 s.pc.toNat := by
  have hguard : fetchAddr s.pc = s.pc := congrArg State.pc (s.atFetch_of_le h)
  rw [State.opcode, hguard]

/-- Settles O50: the load leaves PC at the 512 that Reset gave it, and the fetch guard leaves 512 as it is. -/
theorem entryPointIs512 : Obligations.EntryPointIs512 := by
  intro seed origin bytes t h
  have hpc : t.pc.toNat = 512 := by
    obtain ⟨-, rfl⟩ := (State.load_eq_ok _).mp h
    rfl
  refine ⟨hpc, ?_⟩
  rw [t.opcode_of_le (by omega), hpc]
  exact t.mem.fetch16_toNat 512

end Sys2Proof.Machine
end

section
/-! Decoding and encoding are inverse, and both views of the opcode map select the same row
(spec/30_encoding.md R82 to R87). -/

namespace Sys2Proof

/-! ## Decoding the word of an instruction -/

/-- The word of a well-formed instruction decodes to it: the format's fields come back, the group and the sub-opcode
choose the constructor, and a no-operation's word is unrecognized. -/
theorem decode_encode {i : Instr} (hi : i.wellFormed = true) : decode (encode i) = i := by
  cases i
  case nop w => exact decode_eq_nop_of_unrecognized hi
  case cls | ret => rfl
  case jp | call | ldI | jpV0 => simp [encode, decode]
  case seImm | sneImm | ldImm | addImm | rnd => simp [encode, decode]
  case seReg | sneReg | drw => simp [encode, decode]
  case ldReg | orReg | andReg | xorReg | addReg | subReg | shr | subnReg | shl => simp [encode, decode, decode8]
  case skp | sknp => simp [encode, decode, decodeE]
  case ldDT | addI | ldF | ldB | stRegs | ldRegs => simp [encode, decode, decodeF]

/-- Settles O54: format by format, the fields of the word are the operands. -/
theorem decodeOfEncode : Obligations.DecodeOfEncode := fun _ => decode_encode

/-! ## Encoding what a word decodes to -/

section
variable {w : Word} {g n : Nibble} {nn : Byte}

theorem encodeA_of_group (hg : fieldG w = g) : encodeA g (fieldNNN w) = w := by
  rw [← hg, encodeA_fields]

theorem encodeXI_of_group (hg : fieldG w = g) : encodeXI g (fieldX w) (fieldNN w) = w := by
  rw [← hg, encodeXI_fields]

theorem encodeXY_of_group (hg : fieldG w = g) : encodeXY g (fieldX w) (fieldY w) (fieldN w) = w := by
  rw [← hg, encodeXY_fields]

theorem encodeXI_of_group_nn (hg : fieldG w = g) (hnn : fieldNN w = nn) : encodeXI g (fieldX w) nn = w := by
  rw [← hnn, encodeXI_of_group hg]

theorem encodeXY_of_group_n (hg : fieldG w = g) (hn : fieldN w = n) : encodeXY g (fieldX w) (fieldY w) n = w := by
  rw [← hn, encodeXY_of_group hg]

end

/-- What a word decodes to in group 0 is well-formed and encodes to the word. -/
theorem decode0_faithful {w : Word} (hg : fieldG w = 0) : (decode0 w).wellFormed = true ∧ encode (decode0 w) = w := by
  unfold decode0
  split
  case isTrue hcls => exact ⟨rfl, hcls.symm⟩
  case isFalse hcls =>
    split
    case isTrue hret => exact ⟨rfl, hret.symm⟩
    case isFalse hret =>
      have hun : unrecognized w = true := by rw [unrecognized_eq, hg]; simp [hcls, hret]
      exact ⟨hun, rfl⟩

/-- As for group 0 in group 8, where the no-operations have one of the seven low nibbles without a row. -/
theorem decode8_faithful {w : Word} (hg : fieldG w = 8) : (decode8 w).wellFormed = true ∧ encode (decode8 w) = w := by
  unfold decode8
  split
  case h_10 =>
    have hun : unrecognized w = true := by
      have hn := nibble_cases (fieldN w)
      rw [unrecognized_eq, hg]
      simp_all
    exact ⟨hun, rfl⟩
  all_goals exact ⟨rfl, encodeXY_of_group_n hg (by assumption)⟩

/-- As for group 0 in group E. -/
theorem decodeE_faithful {w : Word} (hg : fieldG w = 14) : (decodeE w).wellFormed = true ∧ encode (decodeE w) = w := by
  unfold decodeE
  split
  case h_3 h9E hA1 =>
    have hun : unrecognized w = true := by rw [unrecognized_eq, hg]; simpa using ⟨h9E, hA1⟩
    exact ⟨hun, rfl⟩
  all_goals exact ⟨rfl, encodeXI_of_group_nn hg (by assumption)⟩

/-- As for group 0 in group F. -/
theorem decodeF_faithful {w : Word} (hg : fieldG w = 15) : (decodeF w).wellFormed = true ∧ encode (decodeF w) = w := by
  unfold decodeF
  split
  case h_7 h15 h1E h29 h33 h55 h65 =>
    have hun : unrecognized w = true := by rw [unrecognized_eq, hg]; simpa using ⟨h15, h1E, h29, h33, h55, h65⟩
    exact ⟨hun, rfl⟩
  all_goals exact ⟨rfl, encodeXI_of_group_nn hg (by assumption)⟩

/-- A word of group 5 or 9 with a low nibble that is not 0 decodes to a well-formed no-operation. -/
theorem unrecognized_of_group_nibble {w : Word} (hg : fieldG w = 5 ∨ fieldG w = 9) (hn : fieldN w ≠ 0) :
    unrecognized w = true := by
  rw [← encodeXY_fields w]
  exact unrecognized_registerSkip_nibble hg hn _ _

/-- What a word decodes to is well-formed and encodes to the word, group by group. -/
theorem decode_faithful (w : Word) : (decode w).wellFormed = true ∧ encode (decode w) = w := by
  unfold decode
  split
  case h_1 hg => exact decode0_faithful hg
  case h_9 hg => exact decode8_faithful hg
  case h_15 hg => exact decodeE_faithful hg
  case h_16 =>
    have hg : fieldG w = 15 := by
      have := nibble_cases (fieldG w)
      simp_all
    exact decodeF_faithful hg
  case h_2 hg | h_3 hg | h_11 hg | h_12 hg => exact ⟨rfl, encodeA_of_group hg⟩
  case h_4 hg | h_5 hg | h_7 hg | h_8 hg | h_13 hg => exact ⟨rfl, encodeXI_of_group hg⟩
  case h_14 hg => exact ⟨rfl, encodeXY_of_group hg⟩
  case h_6 hg =>
    split
    case isTrue hn => exact ⟨rfl, encodeXY_of_group_n hg hn⟩
    case isFalse hn => exact ⟨unrecognized_of_group_nibble (.inl hg) hn, rfl⟩
  case h_10 hg =>
    split
    case isTrue hn => exact ⟨rfl, encodeXY_of_group_n hg hn⟩
    case isFalse hn => exact ⟨unrecognized_of_group_nibble (.inr hg) hn, rfl⟩

/-- Settles O55: in every group and sub-dispatch the fields read rebuild the word. -/
theorem encodeOfDecode : Obligations.EncodeOfDecode := decode_faithful

/-! ## The two views of the opcode map -/

/-- The word of a well-formed instruction selects the row of the instruction. -/
theorem selectedRule_encode : ∀ i : Instr, Laws.OpcodeRow.Statement i
  | .cls => Laws.OpcodeRow.cls
  | .ret => Laws.OpcodeRow.ret
  | .jp nnn => Laws.OpcodeRow.jp nnn
  | .call nnn => Laws.OpcodeRow.call nnn
  | .seImm x nn => Laws.OpcodeRow.seImm x nn
  | .sneImm x nn => Laws.OpcodeRow.sneImm x nn
  | .seReg x y => Laws.OpcodeRow.seReg x y
  | .ldImm x nn => Laws.OpcodeRow.ldImm x nn
  | .addImm x nn => Laws.OpcodeRow.addImm x nn
  | .ldReg x y => Laws.OpcodeRow.ldReg x y
  | .orReg x y => Laws.OpcodeRow.orReg x y
  | .andReg x y => Laws.OpcodeRow.andReg x y
  | .xorReg x y => Laws.OpcodeRow.xorReg x y
  | .addReg x y => Laws.OpcodeRow.addReg x y
  | .subReg x y => Laws.OpcodeRow.subReg x y
  | .shr x y => Laws.OpcodeRow.shr x y
  | .subnReg x y => Laws.OpcodeRow.subnReg x y
  | .shl x y => Laws.OpcodeRow.shl x y
  | .sneReg x y => Laws.OpcodeRow.sneReg x y
  | .ldI nnn => Laws.OpcodeRow.ldI nnn
  | .jpV0 nnn => Laws.OpcodeRow.jpV0 nnn
  | .rnd x nn => Laws.OpcodeRow.rnd x nn
  | .drw x y n => Laws.OpcodeRow.drw x y n
  | .skp x => Laws.OpcodeRow.skp x
  | .sknp x => Laws.OpcodeRow.sknp x
  | .ldDT x => Laws.OpcodeRow.ldDT x
  | .addI x => Laws.OpcodeRow.addI x
  | .ldF x => Laws.OpcodeRow.ldF x
  | .ldB x => Laws.OpcodeRow.ldB x
  | .stRegs x => Laws.OpcodeRow.stRegs x
  | .ldRegs x => Laws.OpcodeRow.ldRegs x
  | .nop w => Laws.OpcodeRow.nop w

/-- Settles O56: the word is that of the instruction it decodes to, which selects the instruction's row. -/
theorem dispatchAgreesWithOpcodeMap : Obligations.DispatchAgreesWithOpcodeMap := by
  intro w
  obtain ⟨hwf, hword⟩ := decode_faithful w
  have hrule : selectedRule (encode (decode w)) = (decode w).rule := selectedRule_encode (decode w) hwf
  rw [← hrule, hword]

/-- A word that selects two rows makes their match words agree on the bits both masks keep. -/
theorem OpcodeRow.match_agree {r q : OpcodeRow} {w : Word} (hr : r.selects w = true) (hq : q.selects w = true) :
    r.matchBits &&& q.mask = q.matchBits &&& r.mask := by
  have hr : w &&& r.mask = r.matchBits := beq_iff_eq.mp hr
  have hq : w &&& q.mask = q.matchBits := beq_iff_eq.mp hq
  rw [← hr, ← hq, BitVec.and_assoc, BitVec.and_assoc, BitVec.and_comm r.mask]

/-- Settles O57: no two of the 31 rows agree on the bits both masks keep. -/
theorem opcodeRowsAreExclusive : Obligations.OpcodeRowsAreExclusive := by
  intro w
  have hdiffer : opcodeMap.Pairwise fun r q => r.matchBits &&& q.mask ≠ q.matchBits &&& r.mask := by decide
  exact hdiffer.imp fun hne hsel => hne (OpcodeRow.match_agree hsel.1 hsel.2)

/-- Settles O58: both say that the opcode map selects its default rule. -/
theorem unrecognizedSpaceAsListed : Obligations.UnrecognizedSpaceAsListed := fun w =>
  ⟨no_row_of_unrecognized, fun h => unrecognized_of_selectedRule ((selectedRule_eq_default w).mpr h)⟩

/-- Settles O59: the twelve words, run through the dispatch. -/
theorem wordsDecodeAsWritten : Obligations.WordsDecodeAsWritten := by
  unfold Obligations.WordsDecodeAsWritten
  decide

end Sys2Proof
end

section
/-! What CALL, RET and JP V0 answer, and that a return undoes a call (spec/40_flow.md R100, R102, R103;
spec/95_test_vectors.md S3). -/

namespace Sys2Proof.Machine

variable (s : State)

/-! ## What CALL and RET answer, on the stack itself -/

/-- `RET` on a stack that is not empty drops the newest entry and jumps to it. -/
theorem exec_ret_of_pos (hsp : s.sp.val ≠ 0) (hlt : s.sp.val - 1 < 16) :
    exec .ret s = .next ({ s with sp := ⟨s.sp.val - 1, by omega⟩ }.jump s.stack[s.sp.val - 1]) :=
  exec_ret_of_pop s (s.pop_eq_some.mpr ⟨hlt, hsp, rfl, rfl⟩)

/-- `CALL NNN` below depth 16 puts the address after it above the entries in use and jumps. -/
theorem exec_call_of_lt (nnn : Addr12) (hsp : s.sp.val < 16) :
    exec (.call nnn) s =
      .next ({ s with stack := s.stack.set s.sp.val (s.pc + 2) hsp,
                      sp := ⟨s.sp.val + 1, by omega⟩ }.jump (addrOperand nnn)) :=
  exec_call_of_push s nnn (s.push_eq_some.mpr ⟨hsp, rfl⟩)

/-- Push writes the stack and nothing else. -/
theorem Frame.push {w : Word} {t : State} (h : s.push w = some t) : Frame { stack := True } s t := by
  obtain ⟨-, rfl⟩ := s.push_eq_some.mp h
  exact { Frame.refl s {} with stack := fun hs => absurd trivial hs }

/-! ## CALL, and RET after it -/

/-- Settles O2: one push, of the address after the call, and one write to PC. -/
theorem callPushesReturnAddress : Obligations.CallPushesReturnAddress := by
  intro nnn s hsp
  have hword : 0x2000#16 ||| nnn.setWidth 16 = encodeA 2 nnn := encodeA_or 2 nnn
  have hpush := (s.push_eq_some (v := s.pc + 2)).mpr ⟨hsp, rfl⟩
  refine ⟨by simp [hword, decode], _, exec_call_of_push s nnn hpush, addrOperand_toNat nnn, rfl, fun k => ?_,
    (Frame.push s hpush).jump _⟩
  simp only [Fin.getElem_fin, State.jump_stack, Vector.getElem_set, eq_comm]

/-- Settles O5: the entry RET drops is the one CALL put there, whatever PC was in between. -/
theorem retUndoesCall : Obligations.RetUndoesCall := by
  intro nnn s t p hsp h
  obtain rfl := Host.Outcome.next.inj ((exec_call_of_lt s nnn hsp).symm.trans h)
  refine ⟨_, exec_ret_of_pos _ (Nat.succ_ne_zero s.sp.val) (by simpa using hsp), ?_, rfl, fun k hk => ?_⟩
  · exact Vector.getElem_set_self hsp
  · exact Vector.getElem_set_ne hsp k.isLt (Nat.ne_of_gt hk)

/-! ## JP V0 -/

theorem exec_jpV0 (nnn : Addr12) :
    exec (.jpV0 nnn) s = .next (s.jump (addrOperand nnn + extend (s.getV 0))) := rfl

/-- An address and a byte add up without a carry out of 16 bits, to at most 4350. -/
theorem addrOperand_add_extend_toNat (nnn : Addr12) (b : Byte) :
    (addrOperand nnn + extend b).toNat = nnn.toNat + b.toNat := by
  have hn := nnn.isLt
  have hb := b.isLt
  rw [BitVec.toNat_add, addrOperand_toNat, extend, BitVec.toNat_setWidth_of_le (by decide), Nat.mod_eq_of_lt (by omega)]

/-- Settles O6: one write to PC, of a sum that fits 16 bits. -/
theorem jumpV0SetsPcToSum : Obligations.JumpV0SetsPcToSum := by
  intro nnn s
  have hword : 0xB000#16 ||| nnn.setWidth 16 = encodeA 11 nnn := encodeA_or 11 nnn
  have hsum := addrOperand_add_extend_toNat nnn (s.getV 0)
  have hle : nnn.toNat + (s.getV 0).toNat ≤ 4350 := by
    have := nnn.isLt
    have := (s.getV 0).isLt
    omega
  exact ⟨by simp [hword, decode], _, exec_jpV0 s nnn, hsum, hsum.trans_le hle, (Frame.refl s {}).jump _⟩

end Sys2Proof.Machine
end

section
/-! Every instruction answers a next state, and a step in terms of the instruction it executes
(spec/10_state.md R40, spec/20_memory.md R53). -/

namespace Sys2Proof.Machine

variable {s t : State}

/-! ## Every instruction answers -/

/-- A data access answers a next state, in bounds or not. -/
theorem withData_next (i : Instr) (body : State → State) (s : State) : ∃ t, withData i body s = .next t := by
  cases hb : s.outOfBounds (dataBytes i)
  case false => exact ⟨_, withData_inBounds s hb⟩
  case true => exact ⟨_, withData_outOfBounds s hb⟩

/-- Every instruction answers a next state: a full or an empty stack and an access out of bounds are faults taken, and
nothing else can go wrong. -/
theorem exec_next (i : Instr) (s : State) : ∃ t, exec i s = .next t := by
  cases i
  case ret =>
    by_cases hsp : s.sp.val = 0
    · exact ⟨_, exec_ret_of_empty s hsp⟩
    · exact ⟨_, exec_ret_of_pos s hsp (by omega)⟩
  case call nnn =>
    by_cases hsp : s.sp.val < 16
    · exact ⟨_, exec_call_of_lt s nnn hsp⟩
    · exact ⟨_, exec_call_of_full s nnn (by omega)⟩
  case drw | ldB | stRegs | ldRegs =>
    simp only [exec, execDrw, execLdB, execStRegs, execLdRegs]
    exact withData_next _ _ s
  all_goals exact ⟨_, rfl⟩

/-! ## The step in terms of the instruction -/

theorem step_of_halted {r : FaultRecord} (hs : s.fault = some r) : step s = .next s := by
  simp [step, State.halted, hs]

theorem step_of_exec (hs : s.fault = none) (h : exec s.fetchInstr s.atFetch = .next t) :
    step s = .next (s.settle t) := by
  simp [step, State.halted, hs, h]

theorem State.settle_of_no_fault (s : State) {t : State} (ht : t.fault = none) : s.settle t = t := by
  simp [State.settle, State.halted, ht]

theorem State.settle_of_fault (s : State) {t : State} (ht : t.fault ≠ none) :
    s.settle t = { s with fault := t.fault } := by
  simp [State.settle, State.halted, Option.isSome_iff_ne_none, ht]

theorem State.settle_eq_ite (s t : State) :
    s.settle t = if t.fault = none then t else { s with fault := t.fault } := by
  split
  case isTrue ht => exact s.settle_of_no_fault ht
  case isFalse ht => exact s.settle_of_fault ht

/-- Every step answers a next state. -/
theorem step_next (s : State) : ∃ t, step s = .next t := by
  cases hs : s.fault with
  | some r => exact ⟨s, step_of_halted hs⟩
  | none =>
    obtain ⟨t, ht⟩ := exec_next s.fetchInstr s.atFetch
    exact ⟨_, step_of_exec hs ht⟩

/-- Settles O39: the step passes on what the instruction answers, and every instruction answers a next state. -/
theorem everyStepAnswersNext : Obligations.EveryStepAnswersNext := ⟨step_next, exec_next⟩

/-- Settles O36: the address `a` is the guarded PC, so `i` is the instruction fetched, and it runs where the step runs
it. -/
theorem stepRunsDecodedInstruction : Obligations.StepRunsDecodedInstruction := by
  rintro s i a hs ha rfl
  have haddr : (fetchAddr s.pc).toNat = a := by rw [ha, fetchAddr, apply_ite BitVec.toNat]; rfl
  have hat : { s with pc := BitVec.ofNat 16 a } = s.atFetch := by
    rw [← haddr, BitVec.ofNat_toNat, BitVec.setWidth_eq]; rfl
  have hinstr : decode (s.mem.read a ++ s.mem.read (a + 1)) = s.fetchInstr := by rw [← haddr]; rfl
  rw [hat, hinstr]
  obtain ⟨t, ht⟩ := exec_next s.fetchInstr s.atFetch
  exact ⟨t, ht, (step_of_exec hs ht).trans (congrArg _ (s.settle_eq_ite t))⟩

/-! ## The fetch guard -/

/-- A PC of 4095 or more and a PC of 512 lead to one and the same state for the instruction to run in. -/
theorem State.atFetch_of_ge (h : 4095 ≤ s.pc.toNat) : s.atFetch = { s with pc := 512#16 } := by
  rw [State.atFetch, fetchAddr, if_pos h]; rfl

/-- Settles O38: the instruction runs in the same state either way, so it answers the same; only the PC that settling
puts back after a fault differs. -/
theorem fetchGuardContinuesAt512 : Obligations.FetchGuardContinuesAt512 := by
  refine ⟨fun pc => by rw [fetchAddr, apply_ite BitVec.toNat]; rfl, fun s t hs hpc h => ?_⟩
  have hat : ({ s with pc := 512#16 } : State).atFetch = s.atFetch := (State.atFetch_of_ge hpc).symm
  have hinstr : ({ s with pc := 512#16 } : State).fetchInstr = s.fetchInstr := by
    have haddr : fetchAddr 512#16 = fetchAddr s.pc := congrArg State.pc hat
    rw [State.fetchInstr, State.opcode, haddr]; rfl
  obtain ⟨u, hu⟩ := exec_next s.fetchInstr s.atFetch
  have h512 : step { s with pc := 512#16 } = .next (State.settle { s with pc := 512#16 } u) :=
    step_of_exec hs (by rw [hinstr, hat]; exact hu)
  obtain rfl := Host.Outcome.next.inj (h512.symm.trans h)
  rw [step_of_exec hs hu]
  by_cases hf : u.fault = none
  · simp [State.settle_of_no_fault, hf]
  · simp [State.settle_of_fault, hf]

/-! ## The step through the host's port -/

/-- Settles O53: the port runs the step under the keys given and reads the reply off the latch. -/
theorem stepReplyTellsFault : Obligations.StepReplyTellsFault := by
  intro s k
  obtain ⟨t, ht⟩ := step_next (s.withKeys k)
  refine ⟨t, t.stepResult, hostDo_step s ht, ht, ?_⟩
  cases hf : t.fault <;> simp [State.stepResult, hf, eq_comm]

end Sys2Proof.Machine
end

section
/-! The instructions that write a flag, and the random byte: what each answers, what the flags say as numbers, and that
flag and result together lose nothing (spec/42_alu.md R126 to R131, spec/10_state.md R27, R42). -/

namespace Sys2Proof.Machine

variable (s : State)

/-! ## What the flag-writing instructions answer -/

theorem exec_addReg (x y : Nibble) : exec (.addReg x y) s =
    .next (s.setFlagThenV x (carryFlag (s.getV x) (s.getV y)) (s.getV x + s.getV y)).advance := rfl

theorem exec_subReg (x y : Nibble) : exec (.subReg x y) s =
    .next (s.setFlagThenV x (greaterFlag (s.getV x) (s.getV y)) (s.getV x - s.getV y)).advance := rfl

theorem exec_subnReg (x y : Nibble) : exec (.subnReg x y) s =
    .next (s.setFlagThenV x (greaterFlag (s.getV y) (s.getV x)) (s.getV y - s.getV x)).advance := rfl

theorem exec_shr (x y : Nibble) : exec (.shr x y) s =
    .next (s.setFlagThenV x (lowBitFlag (s.getV x)) (s.getV x >>> 1)).advance := rfl

theorem exec_shl (x y : Nibble) : exec (.shl x y) s =
    .next (s.setFlagThenV x (highBitFlag (s.getV x)) (s.getV x <<< 1)).advance := rfl

/-! ## What the two writes leave behind -/

/-- The two writes of a flag-writing instruction leave a frame that lists both registers as it is. -/
theorem Frame.setFlagThenV {m : MayWrite} {s t : State} (h : Frame m s t) {x : Nibble} (hx : m.reg x)
    (hf : m.reg regVF) (flag b : Byte) : Frame m s (t.setFlagThenV x flag b) :=
  (h.setV hf flag).setV hx b

theorem Frame.setFlagThenV_advance (x : Nibble) (flag b : Byte) :
    Frame { reg := fun r => r = x ∨ r = regVF } s (s.setFlagThenV x flag b).advance :=
  ((Frame.refl s _).setFlagThenV (Or.inl rfl) (Or.inr rfl) flag b).jump _

/-- The result is in the destination, VF or not. -/
theorem State.setFlagThenV_advance_getV_same (x : Nibble) (flag b : Byte) :
    (s.setFlagThenV x flag b).advance.getV x = b := by simp

/-- The flag stays in VF where the destination is another register. -/
theorem State.setFlagThenV_advance_getV_flag {x : Nibble} (hx : x ≠ regVF) (flag b : Byte) :
    (s.setFlagThenV x flag b).advance.getV regVF = flag := by simp [hx.symm]

/-! ## The flags and the results as numbers -/

theorem flagByte_eq_ite (p : Prop) [Decidable p] : flagByte (decide p) = if p then 1 else 0 := by
  simp [flagByte]

theorem byte_sub_toNat (a b : Byte) : (a - b).toNat = (256 + a.toNat - b.toNat) % 256 := by
  have := b.isLt
  rw [BitVec.toNat_sub]
  omega

theorem lowBitFlag_toNat (a : Byte) : (lowBitFlag a).toNat = a.toNat % 2 := by
  rw [lowBitFlag, BitVec.toNat_and]
  exact Nat.and_one_is_mod a.toNat

theorem highBitFlag_toNat : ∀ a : Byte, (highBitFlag a).toNat = a.toNat / 128 := by decide

theorem shiftRight_one_toNat (a : Byte) : (a >>> 1).toNat = a.toNat / 2 := by
  rw [BitVec.toNat_ushiftRight, Nat.shiftRight_eq_div_pow, pow_one]

theorem shiftLeft_one_toNat (a : Byte) : (a <<< 1).toNat = 2 * a.toNat % 256 := by
  rw [BitVec.toNat_shiftLeft, Nat.shiftLeft_eq, pow_one, Nat.mul_comm]

/-- Carry and sum together are the exact sum. -/
theorem carryFlag_exact (a b : Byte) : 256 * (carryFlag a b).toNat + (a + b).toNat = a.toNat + b.toNat := by
  have ha := a.isLt
  have hb := b.isLt
  rw [carryFlag, flagByte_eq_ite, BitVec.toNat_add]
  split
  · have : (1 : Byte).toNat = 1 := rfl
    omega
  · have : (0 : Byte).toNat = 0 := rfl
    omega

/-- The greater flag and the difference together are the exact difference: without a borrow, with one, or zero. -/
theorem greaterFlag_exact (a b : Byte) :
    (greaterFlag a b = 1 ∧ a.toNat = b.toNat + (a - b).toNat) ∨
    (greaterFlag a b = 0 ∧ a ≠ b ∧ a.toNat + 256 = b.toNat + (a - b).toNat) ∨
    (greaterFlag a b = 0 ∧ a = b ∧ a - b = 0) := by
  have ha := a.isLt
  have hb := b.isLt
  rw [greaterFlag, flagByte_eq_ite, byte_sub_toNat]
  rcases lt_trichotomy a.toNat b.toNat with hlt | heq | hgt
  · refine .inr (.inl ⟨if_neg (by omega), fun e => ?_, by omega⟩)
    exact Nat.ne_of_lt hlt (congrArg BitVec.toNat e)
  · obtain rfl := BitVec.eq_of_toNat_eq heq
    exact .inr (.inr ⟨if_neg (Nat.lt_irrefl _), rfl, BitVec.sub_self a⟩)
  · exact .inl ⟨if_pos hgt, by omega⟩

/-! ## ADD, SUB, SUBN, SHR, SHL -/

/-- Settles O14: the flag is the carry, then the sum is written. -/
theorem addRegistersWithCarry : Obligations.AddRegistersWithCarry := by
  intro x y s
  have hword : 0x8004#16 ||| x.setWidth 16 <<< 8 ||| y.setWidth 16 <<< 4 = encodeXY 8 x y 4 := encodeXY_or 8 x y 4
  refine ⟨by simp [hword, decode, decode8], _, exec_addReg s x y, ?_, fun hx => ?_, rfl,
    Frame.setFlagThenV_advance s x _ _⟩
  · rw [State.setFlagThenV_advance_getV_same, BitVec.toNat_add]
  · rw [State.setFlagThenV_advance_getV_flag s hx, carryFlag, flagByte_eq_ite]

/-- Settles O15: the flag is whether the minuend is greater, then the difference is written; SUBN is SUB with the
operands exchanged. -/
theorem subtractRegisters : Obligations.SubtractRegisters := by
  intro x y s
  have hsub : 0x8005#16 ||| x.setWidth 16 <<< 8 ||| y.setWidth 16 <<< 4 = encodeXY 8 x y 5 := encodeXY_or 8 x y 5
  have hsubn : 0x8007#16 ||| x.setWidth 16 <<< 8 ||| y.setWidth 16 <<< 4 = encodeXY 8 x y 7 := encodeXY_or 8 x y 7
  have hresult (a b flag : Byte) :
      ((s.setFlagThenV x flag (a - b)).advance.getV x).toNat = (256 + a.toNat - b.toNat) % 256 := by
    rw [State.setFlagThenV_advance_getV_same, byte_sub_toNat]
  have hflag (a b d : Byte) (hx : x ≠ 0xF#4) :
      (s.setFlagThenV x (greaterFlag a b) d).advance.getV 0xF#4 = if b.toNat < a.toNat then 1 else 0 := by
    rw [State.setFlagThenV_advance_getV_flag s hx, greaterFlag, flagByte_eq_ite]
  exact ⟨by simp [hsub, decode, decode8], by simp [hsubn, decode, decode8],
    ⟨_, exec_subReg s x y, hresult .., hflag _ _ _, rfl, Frame.setFlagThenV_advance s x _ _⟩,
    ⟨_, exec_subnReg s x y, hresult .., hflag _ _ _, rfl, Frame.setFlagThenV_advance s x _ _⟩⟩

/-- Settles O16: the flag is the bit shifted out, then the shifted value is written. -/
theorem shiftOneBit : Obligations.ShiftOneBit := by
  intro x y s
  have hshr : 0x8006#16 ||| x.setWidth 16 <<< 8 ||| y.setWidth 16 <<< 4 = encodeXY 8 x y 6 := encodeXY_or 8 x y 6
  have hshl : 0x800E#16 ||| x.setWidth 16 <<< 8 ||| y.setWidth 16 <<< 4 = encodeXY 8 x y 14 := encodeXY_or 8 x y 14
  refine ⟨by simp [hshr, decode, decode8], by simp [hshl, decode, decode8],
    ⟨_, exec_shr s x y, ?_, fun hx => ?_, rfl, Frame.setFlagThenV_advance s x _ _⟩,
    ⟨_, exec_shl s x y, ?_, fun hx => ?_, rfl, Frame.setFlagThenV_advance s x _ _⟩⟩
  · rw [State.setFlagThenV_advance_getV_same, shiftRight_one_toNat]
  · rw [State.setFlagThenV_advance_getV_flag s hx, lowBitFlag_toNat]
  · rw [State.setFlagThenV_advance_getV_same, shiftLeft_one_toNat]
  · rw [State.setFlagThenV_advance_getV_flag s hx, highBitFlag_toNat]

/-- Settles O17: what each instruction leaves in VF and in the destination, put together by the arithmetic of its
flag. -/
theorem flagAndResultAreExact : Obligations.FlagAndResultAreExact := by
  intro x y s t hx
  have hafter {flag b : Byte} (h : Host.Outcome.next (s.setFlagThenV x flag b).advance = (.next t : Result)) :
      t.getV 0xF#4 = flag ∧ t.getV x = b := by
    obtain rfl := Host.Outcome.next.inj h
    exact ⟨s.setFlagThenV_advance_getV_flag hx flag b, s.setFlagThenV_advance_getV_same x flag b⟩
  refine ⟨fun h => ?_, fun h => ?_, fun h => ?_, fun h => ?_, fun h => ?_⟩
  · obtain ⟨hf, hr⟩ := hafter h
    rw [hf, hr, carryFlag_exact]
  · obtain ⟨hf, hr⟩ := hafter h
    rw [hf, hr]
    exact greaterFlag_exact _ _
  · obtain ⟨hf, hr⟩ := hafter h
    rw [hf, hr, ne_comm, eq_comm (a := s.getV x)]
    exact greaterFlag_exact _ _
  · obtain ⟨hf, hr⟩ := hafter h
    rw [hf, hr, shiftRight_one_toNat, lowBitFlag_toNat]
    omega
  · have hv := (s.getV x).isLt
    obtain ⟨hf, hr⟩ := hafter h
    rw [hf, hr, shiftLeft_one_toNat, highBitFlag_toNat]
    omega

/-! ## RND -/

theorem exec_rnd (x : Nibble) (nn : Byte) :
    exec (.rnd x nn) s = .next (s.drawRandom.setV x (s.nextRandom &&& nn)).advance := rfl

/-- One draw leaves a frame that lists the generator as it is. -/
theorem Frame.drawRandom {m : MayWrite} {s t : State} (h : Frame m s t) (hr : m.rng) : Frame m s t.drawRandom :=
  { h with rng := fun hn => absurd hr hn }

/-- Settles O18: one draw and one register write, of the byte under the mask. -/
theorem randomIsMaskedDraw : Obligations.RandomIsMaskedDraw := by
  intro x nn s
  have hword : 0xC000#16 ||| x.setWidth 16 <<< 8 ||| nn.setWidth 16 = encodeXI 12 x nn := encodeXI_or 12 x nn
  have hv : (s.drawRandom.setV x (s.nextRandom &&& nn)).advance.getV x = s.nextRandom &&& nn :=
    s.drawRandom.setV_advance_getV_same x _
  refine ⟨by simp [hword, decode], _, exec_rnd s x nn, hv, fun k hk => ?_, rfl, rfl, rfl,
    (((Frame.refl s _).drawRandom trivial).setV rfl _).jump _⟩
  rw [hv, BitVec.getLsbD_and, hk, Bool.and_false]

end Sys2Proof.Machine
end

section
/-! The register block through I, what a store or a load of a program puts in memory, and the opcodes fetched from it
(spec/43_index_memory.md R141, R144, R145; spec/20_memory.md section 7; spec/70_reset_and_hazards.md R203). -/

namespace Sys2Proof.Machine

variable (s : State)

/-! ## ADD I -/

theorem exec_addI (x : Nibble) : exec (.addI x) s = .next (s.setI (s.i + extend (s.getV x))).advance := rfl

/-- Settles O20: one write to I, of the sum as 16-bit words add. -/
theorem addToIndex : Obligations.AddToIndex := by
  intro x s
  have hword : 0xF01E#16 ||| x.setWidth 16 <<< 8 = encodeXI 15 x 0x1E := encodeXF_or 15 x 0x1E
  refine ⟨by simp [hword, decode, decodeF], _, exec_addI s x, ?_, rfl, Frame.setI_advance s _⟩
  rw [State.advance_i, State.setI_i, BitVec.toNat_add, extend, BitVec.toNat_setWidth_of_le (by decide)]

/-! ## The register block -/

/-- The register number `k` of the block is register `k`. -/
theorem ofNat_nibble_toNat (k : Nibble) : BitVec.ofNat 4 k.toNat = k := by
  rw [BitVec.ofNat_toNat, BitVec.setWidth_eq]

/-- After FX55 in bounds, the byte at I + k is register `k`. -/
theorem read_after_stRegs (hmem : s.mem.wf) (base : Nat) {x k : Nibble} (hk : k.toNat ≤ x.toNat) :
    (s.storeBytes base (fun k => s.getV (BitVec.ofNat 4 k)) (x.toNat + 1)).advance.mem.read (base + k.toNat) =
      s.getV k := by
  rw [s.storeBytes_advance_read hmem base _ (Nat.lt_succ_of_le hk), ofNat_nibble_toNat]

/-- Settles O23: in bounds FX55 is one store, of the registers at I. -/
theorem storeRegisters : Obligations.StoreRegisters := by
  intro x s hmem hin
  have hword : 0xF055#16 ||| x.setWidth 16 <<< 8 = encodeXI 15 x 0x55 := encodeXF_or 15 x 0x55
  exact ⟨by simp [hword, decode, decodeF], _, exec_stRegs_inBounds s x hin, fun k hk => read_after_stRegs s hmem _ hk,
    rfl, Frame.storeBytes_advance s hmem _ _ _⟩

/-- Loading registers from `V[0]` leaves a frame that lists them as it is. -/
theorem Frame.loadRegs {m : MayWrite} {s t : State} (h : Frame m s t) {n : Nat}
    (hreg : ∀ x : Nibble, x.toNat < n → m.reg x) (base : Nat) : Frame m s (t.loadRegs base n) := by
  induction n with
  | zero => exact h
  | succ n ih =>
    have hn : (BitVec.ofNat 4 n).toNat < n + 1 := Nat.lt_succ_of_le (BitVec.toNat_ofNat n 4 ▸ Nat.mod_le _ _)
    exact (ih fun x hx => hreg x (Nat.lt_succ_of_lt hx)).setV (hreg _ hn) _

/-- After FX65 in bounds, register `k` of the block is the byte at I + k and every other register is as before. -/
theorem loadRegs_advance_getV (base : Nat) (x k : Nibble) :
    (s.loadRegs base (x.toNat + 1)).advance.getV k =
      if k.toNat ≤ x.toNat then s.mem.read (base + k.toNat) else s.getV k := by
  simp only [State.advance_getV, s.loadRegs_getV base x.isLt, Nat.lt_succ_iff]

/-- Settles O24: in bounds FX65 is one load of registers, of the bytes at I. -/
theorem loadRegisters : Obligations.LoadRegisters := by
  intro x s hin
  have hword : 0xF065#16 ||| x.setWidth 16 <<< 8 = encodeXI 15 x 0x65 := encodeXF_or 15 x 0x65
  refine ⟨by simp [hword, decode, decodeF], _, exec_ldRegs_inBounds s x hin, fun k hk => ?_, by simp,
    ((Frame.refl s _).loadRegs (fun _ => Nat.le_of_lt_succ) _).jump _⟩
  rw [loadRegs_advance_getV, if_pos hk]; rfl

/-- Settles O25: the store leaves I and puts register `k` where the load reads it. -/
theorem storeLoadRoundTrip : Obligations.StoreLoadRoundTrip := by
  intro x s t v hmem hin h
  obtain rfl := Host.Outcome.next.inj ((exec_stRegs_inBounds s x hin).symm.trans h)
  refine ⟨_, exec_ldRegs_inBounds _ x hin, by simp, fun k => ?_⟩
  rw [loadRegs_advance_getV]
  by_cases hk : k.toNat ≤ x.toNat
  · rw [if_pos hk, if_pos hk]
    exact read_after_stRegs s hmem _ hk
  · rw [if_neg hk, if_neg hk]; rfl

/-! ## An access out of bounds -/

/-- Settles O27: the bounds check fails, and then the latch alone is written. -/
theorem outOfBoundsHasNoPartialEffect : Obligations.OutOfBoundsHasNoPartialEffect := by
  intro i s hone hlast
  have hout : s.outOfBounds (dataBytes i) = true := (s.outOfBounds_iff _).mpr ⟨hone, by omega⟩
  exact exec_of_outOfBounds hout

/-! ## Load -/

/-- A `Load` that fits answers the store of its bytes. -/
theorem hostDo_load_fits {bytes : List Byte} {origin : Nat} (h : bytes.length + origin ≤ 4096) :
    hostDo (.load bytes origin) s =
      .next (s.storeBytes origin (fun k => bytes.getD k 0) bytes.length, .done) := by
  rw [hostDo, s.load_eq_ok.mpr ⟨h, rfl⟩]

/-- A `Load` that does not fit answers the failure and the state it found. -/
theorem hostDo_load_too_large {bytes : List Byte} {origin : Nat} (h : 4096 < bytes.length + origin) :
    hostDo (.load bytes origin) s = .next (s, .failed .programTooLarge (bytes.length + origin)) := by
  rw [hostDo, State.load, if_pos h]

/-- After a store, a byte outside the range is as before. -/
theorem State.read_storeBytes_out (hmem : s.mem.wf) {base n a : Nat} (ha : a < base ∨ base + n ≤ a) (f : Nat → Byte) :
    (s.storeBytes base f n).mem.read a = s.mem.read a := by
  rw [State.storeBytes_mem, Memory.read_storeBytes hmem.1, if_neg (by omega)]

/-- Byte `k` of a loaded program is at its origin plus `k`. -/
theorem read_after_load (hmem : s.mem.wf) (bytes : List Byte) (origin k : Nat) (hk : k < bytes.length) :
    (s.storeBytes origin (fun k => bytes.getD k 0) bytes.length).mem.read (origin + k) = bytes[k] :=
  (s.storeBytes_advance_read hmem origin _ hk).trans (List.getD_eq_getElem _ _ hk)

/-- Settles O51: a `Load` that fits is one store, and one that does not is none. -/
theorem loadIsAllOrNothing : Obligations.LoadIsAllOrNothing := fun bytes origin s hmem =>
  ⟨fun hfits => ⟨_, hostDo_load_fits s hfits, read_after_load s hmem bytes origin, rfl,
    (Frame.refl s _).storeBytes hmem.1 (fun _ ha => ha) _⟩, hostDo_load_too_large s⟩

/-! ## The opcodes fetched after a store -/

/-- The opcode fetched with PC at `p` is the two bytes in memory at the guarded `p`. -/
theorem State.opcode_at (p : Word) :
    ({ s with pc := p } : State).opcode = s.mem.read (fetchAddr p).toNat ++ s.mem.read ((fetchAddr p).toNat + 1) := rfl

/-- Settles O28: the fetch reads the memory the store left, whatever PC is, and a store puts its bytes in the range and
no byte elsewhere. -/
theorem storedCodeIsFetchedNext : Obligations.StoredCodeIsFetchedNext := by
  refine ⟨fun x s hmem hin => ?_, fun x s hmem hin => ?_, fun bytes origin s hmem hfits => ?_⟩
  · exact ⟨_, _, exec_stRegs_inBounds s x hin, rfl, rfl, fun k hk => read_after_stRegs s hmem _ hk,
      fun a ha => s.read_storeBytes_out hmem (ha.imp_right Nat.succ_le_of_lt) _, State.opcode_at _⟩
  · obtain ⟨hundreds, tens, ones⟩ := decimalDigit_toNat (s.getV x)
    have hread (k : Nat) (hk : k < 3) :=
      congrArg BitVec.toNat (s.storeBytes_advance_read hmem s.i.toNat (decimalDigit (s.getV x)) hk)
    exact ⟨_, _, exec_ldB_inBounds s x hin, rfl, rfl, (hread 0 (by decide)).trans hundreds,
      (hread 1 (by decide)).trans tens, (hread 2 (by decide)).trans ones,
      fun a ha => s.read_storeBytes_out hmem (ha.imp_right Nat.succ_le_of_lt) _, State.opcode_at _⟩
  · exact ⟨_, _, hostDo_load_fits s hfits, rfl, read_after_load s hmem bytes origin,
      fun a ha => s.read_storeBytes_out hmem ha _, State.opcode_at _⟩

end Sys2Proof.Machine
end

section
/-! Drawing as a set operation on pixels: the pixels a sprite's 1 bits address are turned on, and VF tells whether one
of them was on (spec/44_display.md R151, R152; spec/95_test_vectors.md S4). -/

namespace Sys2Proof.Machine

variable (s : State)

/-! ## The drawing loop and the set of addressed pixels -/

/-- A sprite covers the pixels its 1 bits land on, each given as the loop computes it. -/
theorem State.spriteCovers_iff (x y n : Nibble) (r : Fin 32) (c : Fin 64) :
    s.spriteCovers x y n r c ↔ ∃ i j, i < n.toNat ∧ j < 8 ∧ (s.mem.read (s.i.toNat + i)).getLsbD (7 - j) = true ∧
      r = rowOf (s.getV y) i ∧ c = colOf (s.getV x) j := by
  simp only [State.spriteCovers, Fin.ext_iff, rowOf, colOf, Fin.val_ofNat]

/-- The pixels on after the loop: those on before, and those the sprite covers. -/
theorem State.canvas_pixel (x y n : Nibble) (r : Fin 32) (c : Fin 64) :
    (s.canvas x y n).fb.pixel r c = true ↔ s.pixel r c = true ∨ s.spriteCovers x y n r c := by
  rw [s.spriteCovers_iff]
  exact drawRows_pixel _ _ _ _ _ r c

/-- The loop flags a collision exactly where the sprite covers a pixel on before. -/
theorem State.canvas_hit (x y n : Nibble) :
    (s.canvas x y n).hit = true ↔ ∃ r c, s.spriteCovers x y n r c ∧ s.pixel r c = true := by
  refine (drawRows_hit _ _ _ (Nat.le_of_lt n.isLt) _).trans ⟨?_, ?_⟩
  · rintro (hfalse | ⟨i, j, hi, hj, hbit, hon⟩)
    · cases hfalse
    · exact ⟨_, _, (s.spriteCovers_iff ..).mpr ⟨i, j, hi, hj, hbit, rfl, rfl⟩, hon⟩
  · rintro ⟨r, c, hcovers, hon⟩
    obtain ⟨i, j, hi, hj, hbit, rfl, rfl⟩ := (s.spriteCovers_iff ..).mp hcovers
    exact .inr ⟨i, j, hi, hj, hbit, hon⟩

/-- A pixel the sprite does not cover is after the loop as before it. -/
theorem State.canvas_pixel_of_not_covers {x y n : Nibble} {r : Fin 32} {c : Fin 64} (h : ¬ s.spriteCovers x y n r c) :
    (s.canvas x y n).fb.pixel r c = s.pixel r c :=
  Bool.eq_iff_iff.mpr ((s.canvas_pixel x y n r c).trans (or_iff_left h))

/-! ## What a draw leaves behind -/

/-- The state a draw in bounds answers. -/
def State.drawn (x y n : Nibble) : State :=
  ((s.setFB (s.canvas x y n).fb).setV regVF (flagByte (s.canvas x y n).hit)).advance

theorem exec_drw_drawn (x y n : Nibble) (h : n.toNat = 0 ∨ s.i.toNat + n.toNat - 1 < 4096) :
    exec (.drw x y n) s = .next (s.drawn x y n) := exec_drw_inBounds s x y n h

theorem State.drawn_pixel (x y n : Nibble) (r : Fin 32) (c : Fin 64) :
    (s.drawn x y n).pixel r c = true ↔ s.pixel r c = true ∨ s.spriteCovers x y n r c :=
  s.canvas_pixel x y n r c

theorem State.drawn_getV_flag (x y n : Nibble) : (s.drawn x y n).getV regVF = flagByte (s.canvas x y n).hit := by
  simp [State.drawn]

theorem State.drawn_getV_of_ne (x y n : Nibble) {z : Nibble} (hz : z ≠ regVF) : (s.drawn x y n).getV z = s.getV z := by
  simp [State.drawn, hz]

/-- A flag byte is 1 exactly where the flag is set. -/
theorem flagByte_eq_one {c : Bool} : flagByte c = 1 ↔ c = true := by cases c <;> decide

theorem flagByte_eq_zero_or_one (c : Bool) : flagByte c = 0 ∨ flagByte c = 1 := by cases c <;> decide

/-- VF after a draw is 1 exactly where the sprite covers a pixel on before. -/
theorem State.drawn_flag (x y n : Nibble) :
    (s.drawn x y n).getV regVF = 1 ↔ ∃ r c, s.spriteCovers x y n r c ∧ s.pixel r c = true := by
  rw [State.drawn_getV_flag, flagByte_eq_one, State.canvas_hit]

/-- A draw leaves a frame that lists VF and the pixels the sprite covers as it is. -/
theorem Frame.drawn {m : MayWrite} (hf : m.reg regVF) {x y n : Nibble}
    (hp : ∀ r c, s.spriteCovers x y n r c → m.pixel r c) : Frame m s (s.drawn x y n) := by
  have hfb : Frame m s (s.setFB (s.canvas x y n).fb) :=
    { Frame.refl s m with
      pixel := fun r c hn => s.canvas_pixel_of_not_covers fun hcovers => hn (hp r c hcovers) }
  exact (hfb.setV hf _).jump _

/-! ## DRW -/

/-- Settles O30: the loop turns on the pixels covered, and its collision flag is VF. -/
theorem drawIsOrWithSprite : Obligations.DrawIsOrWithSprite := by
  intro x y n s hin
  have hword : 0xD000#16 ||| x.setWidth 16 <<< 8 ||| y.setWidth 16 <<< 4 ||| n.setWidth 16 = encodeXY 13 x y n :=
    encodeXYN_or 13 x y n
  refine ⟨by simp [hword, decode], _, exec_drw_drawn s x y n hin, s.drawn_pixel x y n, ?_, s.drawn_flag x y n, rfl,
    Frame.drawn s rfl fun _ _ h => h⟩
  rw [State.drawn_getV_flag]
  exact flagByte_eq_zero_or_one _

/-- A draw from a state with the same sprite bytes and coordinates covers the same pixels. -/
theorem State.drawn_spriteCovers {x y : Nibble} (hx : x ≠ regVF) (hy : y ≠ regVF) (n : Nibble) (r : Fin 32)
    (c : Fin 64) : (s.drawn x y n).spriteCovers x y n r c ↔ s.spriteCovers x y n r c := by
  rw [State.spriteCovers, s.drawn_getV_of_ne _ _ _ hx, s.drawn_getV_of_ne _ _ _ hy]; rfl

/-- A sprite covers some pixel exactly where one of its bits is 1. -/
theorem State.exists_spriteCovers (x y n : Nibble) : (∃ r c, s.spriteCovers x y n r c) ↔
    ∃ i j, i < n.toNat ∧ j < 8 ∧ (s.mem.read (s.i.toNat + i)).getLsbD j = true := by
  simp only [s.spriteCovers_iff]
  constructor
  · rintro ⟨r, c, i, j, hi, -, hbit, -⟩
    exact ⟨i, 7 - j, hi, by omega, hbit⟩
  · rintro ⟨i, j, hi, hj, hbit⟩
    have hback : 7 - (7 - j) = j := by omega
    exact ⟨_, _, i, 7 - j, hi, by omega, by rwa [hback], rfl, rfl⟩

/-- Settles O31: after the first draw the pixels the second covers are on, so the second turns none on and collides
as soon as it covers one. -/
theorem drawTwiceCollides : Obligations.DrawTwiceCollides := by
  intro x y n s t hx hy hin h
  obtain rfl := Host.Outcome.next.inj ((exec_drw_drawn s x y n hin).symm.trans h)
  have hsame := s.drawn_spriteCovers hx hy n
  have hon (r : Fin 32) (c : Fin 64) (hcovers : s.spriteCovers x y n r c) : (s.drawn x y n).pixel r c = true :=
    (s.drawn_pixel x y n r c).mpr (.inr hcovers)
  refine ⟨_, exec_drw_drawn _ x y n hin, fun r c => ?_, ?_⟩
  · rw [Bool.eq_iff_iff, State.drawn_pixel, hsame]
    exact or_iff_left_of_imp (hon r c)
  · rw [State.drawn_flag, ← s.exists_spriteCovers x y n]
    simp only [hsame, and_iff_left_of_imp (hon _ _)]

end Sys2Proof.Machine
end

section
/-! What every instruction writes and where it leaves PC: the frame by instruction, the stores into memory, the value of
PC (spec/10_state.md R21 to R37, section 3; spec/20_memory.md R66). -/

namespace Sys2Proof.Machine

variable {s t : State}

/-! ## The instructions with more than one outcome, inverted -/

theorem exec_ret_cases (h : exec .ret s = .next t) :
    (s.sp.val = 0 ∧ t = s.raise .stackUnderflow .ret 0) ∨
      ∃ hlt : s.sp.val - 1 < 16, s.sp.val ≠ 0 ∧
        t = { s with sp := ⟨s.sp.val - 1, by omega⟩ }.jump s.stack[s.sp.val - 1] := by
  by_cases hsp : s.sp.val = 0
  · exact .inl ⟨hsp, Host.Outcome.next.inj (h.symm.trans (exec_ret_of_empty s hsp))⟩
  · have hlt : s.sp.val - 1 < 16 := by omega
    exact .inr ⟨hlt, hsp, Host.Outcome.next.inj (h.symm.trans (exec_ret_of_pos s hsp hlt))⟩

theorem exec_call_cases {nnn : Addr12} (h : exec (.call nnn) s = .next t) :
    (s.sp.val = 16 ∧ t = s.raise .stackOverflow (.call nnn) s.sp.val) ∨
      ∃ hsp : s.sp.val < 16,
        t = { s with stack := s.stack.set s.sp.val (s.pc + 2) hsp,
                     sp := ⟨s.sp.val + 1, by omega⟩ }.jump (addrOperand nnn) := by
  by_cases hsp : s.sp.val < 16
  · exact .inr ⟨hsp, Host.Outcome.next.inj (h.symm.trans (exec_call_of_lt s nnn hsp))⟩
  · have hfull : s.sp.val = 16 := by omega
    exact .inl ⟨hfull, Host.Outcome.next.inj (h.symm.trans (exec_call_of_full s nnn hfull))⟩

theorem exec_drw_cases {x y n : Nibble} (h : exec (.drw x y n) s = .next t) :
    (s.outOfBounds (dataBytes (.drw x y n)) = true ∧
        t = s.raise .outOfBoundsMemoryAccess (.drw x y n) s.firstOutOfBounds) ∨
      (s.outOfBounds (dataBytes (.drw x y n)) = false ∧ t = s.drawn x y n) := by
  rw [exec, execDrw] at h
  exact withData_cases s h

theorem exec_ldB_cases {x : Nibble} (h : exec (.ldB x) s = .next t) :
    (s.outOfBounds (dataBytes (.ldB x)) = true ∧ t = s.raise .outOfBoundsMemoryAccess (.ldB x) s.firstOutOfBounds) ∨
      (s.outOfBounds (dataBytes (.ldB x)) = false ∧
        t = (s.storeBytes s.i.toNat (decimalDigit (s.getV x)) 3).advance) := by
  rw [exec, execLdB] at h
  exact withData_cases s h

theorem exec_stRegs_cases {x : Nibble} (h : exec (.stRegs x) s = .next t) :
    (s.outOfBounds (dataBytes (.stRegs x)) = true ∧
        t = s.raise .outOfBoundsMemoryAccess (.stRegs x) s.firstOutOfBounds) ∨
      (s.outOfBounds (dataBytes (.stRegs x)) = false ∧
        t = (s.storeBytes s.i.toNat (fun k => s.getV (BitVec.ofNat 4 k)) (x.toNat + 1)).advance) := by
  rw [exec, execStRegs] at h
  exact withData_cases s h

theorem exec_ldRegs_cases {x : Nibble} (h : exec (.ldRegs x) s = .next t) :
    (s.outOfBounds (dataBytes (.ldRegs x)) = true ∧
        t = s.raise .outOfBoundsMemoryAccess (.ldRegs x) s.firstOutOfBounds) ∨
      (s.outOfBounds (dataBytes (.ldRegs x)) = false ∧ t = (s.loadRegs s.i.toNat (x.toNat + 1)).advance) := by
  rw [exec, execLdRegs] at h
  exact withData_cases s h

/-! ## The frame, memory aside -/

/-- A write to the stack leaves a frame that lists it as it is. -/
theorem Frame.setStack {m : MayWrite} (h : Frame m s t) (hst : m.stack) (sp : Fin 17) (stack : Vector Word 16) :
    Frame m s { t with sp := sp, stack := stack } :=
  { h with stack := fun hn => absurd hst hn }

/-- A store leaves a frame that lists all of memory as it is, in whatever form memory is. -/
theorem Frame.storeBytes_anywhere {m : MayWrite} (h : Frame m s t) (hb : ∀ a, m.byte a) (base : Nat) (f : Nat → Byte)
    (n : Nat) : Frame m s (t.storeBytes base f n) :=
  { h with byte := fun a hn => absurd (hb a) hn }

/-- What an instruction may write, with all of memory added. -/
abbrev mayWriteMem (s : State) (i : Instr) : MayWrite := { mayWrite s i with byte := fun _ => True }

/-- Memory aside, every instruction writes only what the spec lists for it, in whatever form memory is. -/
theorem exec_frame_mem {i : Instr} (h : exec i s = .next t) : Frame (mayWriteMem s i) s t := by
  have hs : Frame (mayWriteMem s i) s s := Frame.refl s _
  cases i
  case ret =>
    obtain ⟨-, rfl⟩ | ⟨_, -, rfl⟩ := exec_ret_cases h
    · exact hs.raise trivial _ _ _
    · exact (hs.setStack trivial _ _).jump _
  case call nnn =>
    obtain ⟨-, rfl⟩ | ⟨_, rfl⟩ := exec_call_cases h
    · exact hs.raise trivial _ _ _
    · exact (hs.setStack trivial _ _).jump _
  case drw x y n =>
    obtain ⟨-, rfl⟩ | ⟨-, rfl⟩ := exec_drw_cases h
    · exact hs.raise trivial _ _ _
    · exact Frame.drawn s rfl fun _ _ hc => hc
  case ldB x =>
    obtain ⟨-, rfl⟩ | ⟨-, rfl⟩ := exec_ldB_cases h
    · exact hs.raise trivial _ _ _
    · exact (hs.storeBytes_anywhere (fun _ => trivial) _ _ _).jump _
  case stRegs x =>
    obtain ⟨-, rfl⟩ | ⟨-, rfl⟩ := exec_stRegs_cases h
    · exact hs.raise trivial _ _ _
    · exact (hs.storeBytes_anywhere (fun _ => trivial) _ _ _).jump _
  case ldRegs x =>
    obtain ⟨-, rfl⟩ | ⟨-, rfl⟩ := exec_ldRegs_cases h
    · exact hs.raise trivial _ _ _
    · exact (hs.loadRegs (fun _ => Nat.le_of_lt_succ) _).jump _
  all_goals obtain rfl := Host.Outcome.next.inj h
  case cls => exact (hs.setFB (fun _ _ => trivial) _).jump _
  case jp | jpV0 | nop => exact hs.jump _
  case seImm | sneImm | seReg | sneReg | skp | sknp => exact hs.skipIf _
  case ldImm | addImm | ldReg | orReg | andReg | xorReg => exact (hs.setV rfl _).jump _
  case addReg | subReg | shr | subnReg | shl => exact (hs.setFlagThenV (Or.inl rfl) (Or.inr rfl) _ _).jump _
  case rnd => exact ((hs.drawRandom trivial).setV rfl _).jump _
  case ldI | addI | ldF => exact (hs.setI trivial _).jump _
  case ldDT => exact (hs.setDT trivial _).jump _

/-! ## Memory -/

/-- An instruction leaves memory as it is, or stores its data bytes at I: inside memory, at addresses the spec lists. -/
theorem exec_mem_cases {i : Instr} (h : exec i s = .next t) :
    t.mem = s.mem ∨ ∃ f : Nat → Byte, s.i.toNat + dataBytes i ≤ 4096 ∧
      (∀ a, s.i.toNat ≤ a → a < s.i.toNat + dataBytes i → (mayWrite s i).byte a) ∧
      t.mem = s.mem.storeBytes s.i.toNat f (dataBytes i) := by
  cases i
  case ret => obtain ⟨-, rfl⟩ | ⟨_, -, rfl⟩ := exec_ret_cases h <;> exact .inl rfl
  case call nnn => obtain ⟨-, rfl⟩ | ⟨_, rfl⟩ := exec_call_cases h <;> exact .inl rfl
  case drw x y n => obtain ⟨-, rfl⟩ | ⟨-, rfl⟩ := exec_drw_cases h <;> exact .inl rfl
  case ldRegs x =>
    obtain ⟨-, rfl⟩ | ⟨-, rfl⟩ := exec_ldRegs_cases h
    · exact .inl rfl
    · exact .inl (s.loadRegs_mem _ _)
  case ldB x =>
    obtain ⟨-, rfl⟩ | ⟨hin, rfl⟩ := exec_ldB_cases h
    · exact .inl rfl
    · exact .inr ⟨_, ((s.inBounds_iff 3).mp hin).resolve_left (by decide),
        fun a hlo hhi => ⟨hlo, Nat.le_of_lt_succ hhi⟩, rfl⟩
  case stRegs x =>
    obtain ⟨-, rfl⟩ | ⟨hin, rfl⟩ := exec_stRegs_cases h
    · exact .inl rfl
    · exact .inr ⟨_, ((s.inBounds_iff _).mp hin).resolve_left (Nat.succ_ne_zero _),
        fun a hlo hhi => ⟨hlo, Nat.le_of_lt_succ hhi⟩, rfl⟩
  all_goals
    obtain rfl := Host.Outcome.next.inj h
    exact .inl (by simp)

/-- An instruction changes only the bytes the spec lists for it. -/
theorem exec_read_of_not_byte {i : Instr} (hmem : s.mem.wf) (h : exec i s = .next t) {a : Nat}
    (ha : ¬ (mayWrite s i).byte a) : t.mem.read a = s.mem.read a := by
  obtain hkeep | ⟨f, -, hlisted, hstore⟩ := exec_mem_cases h
  · rw [hkeep]
  · rw [hstore, Memory.read_storeBytes hmem.1, if_neg fun hin => ha (hlisted a hin.1 hin.2)]

/-- Every instruction keeps memory's canonical form. -/
theorem exec_mem_wf {i : Instr} (hmem : s.mem.wf) (h : exec i s = .next t) : t.mem.wf := by
  obtain hkeep | ⟨f, hin, -, hstore⟩ := exec_mem_cases h
  · rw [hkeep]; exact hmem
  · rw [hstore]; exact Memory.storeBytes_wf hmem hin f

/-- Settles O45: the frame of each instruction, with the bytes of memory that its store leaves alone. -/
theorem instructionsWriteOnlyTheirState : Obligations.InstructionsWriteOnlyTheirState := fun _ _ _ hmem h =>
  { exec_frame_mem h with byte := fun _ => exec_read_of_not_byte hmem h }

/-! ## Where PC goes -/

/-- At the address of an instruction, PC has room for the advance and for the skip. -/
theorem pc_add_toNat {pc k : Word} (hpc : pc.toNat ≤ 4094) (hk : k.toNat ≤ 4) :
    (pc + k).toNat = pc.toNat + k.toNat := by
  rw [BitVec.toNat_add, Nat.mod_eq_of_lt (by omega)]

theorem State.advance_pc_toNat (hpc : s.pc.toNat ≤ 4094) : s.advance.pc.toNat = s.pc.toNat + 2 :=
  pc_add_toNat hpc (by decide)

theorem State.skipIf_pc_toNat (hpc : s.pc.toNat ≤ 4094) (c : Bool) :
    (s.skipIf c).pc.toNat = if c then s.pc.toNat + 4 else s.pc.toNat + 2 := by
  cases c
  case false => exact pc_add_toNat hpc (by decide)
  case true => exact pc_add_toNat hpc (by decide)

/-- An instruction that runs at a fetch address and takes no fault leaves PC where the spec's table says. -/
theorem exec_pc {i : Instr} (hpc : s.pc.toNat ≤ 4094) (h : exec i s = .next t) (ht : t.fault = none) :
    t.pc.toNat = pcAfter s i := by
  cases i
  case ret =>
    obtain ⟨-, rfl⟩ | ⟨hlt, -, rfl⟩ := exec_ret_cases h
    · cases ht
    · simp only [State.jump_pc, pcAfter, Nat.mod_eq_of_lt hlt]
  case call nnn =>
    obtain ⟨-, rfl⟩ | ⟨_, rfl⟩ := exec_call_cases h
    · cases ht
    · exact addrOperand_toNat nnn
  case drw x y n =>
    obtain ⟨-, rfl⟩ | ⟨-, rfl⟩ := exec_drw_cases h
    · cases ht
    · exact State.advance_pc_toNat hpc
  case ldB x =>
    obtain ⟨-, rfl⟩ | ⟨-, rfl⟩ := exec_ldB_cases h
    · cases ht
    · exact State.advance_pc_toNat hpc
  case stRegs x =>
    obtain ⟨-, rfl⟩ | ⟨-, rfl⟩ := exec_stRegs_cases h
    · cases ht
    · exact State.advance_pc_toNat hpc
  case ldRegs x =>
    obtain ⟨-, rfl⟩ | ⟨-, rfl⟩ := exec_ldRegs_cases h
    · cases ht
    · rw [pcAfter, ← s.loadRegs_pc s.i.toNat (x.toNat + 1)]
      exact State.advance_pc_toNat (by rwa [State.loadRegs_pc])
  all_goals obtain rfl := Host.Outcome.next.inj h
  case jp nnn => exact addrOperand_toNat nnn
  case jpV0 nnn => exact addrOperand_add_extend_toNat nnn _
  case seImm | sneImm | seReg | sneReg | skp =>
    rw [State.skipIf_pc_toNat hpc]
    simp [pcAfter]
  case sknp x =>
    rw [State.skipIf_pc_toNat hpc]
    cases hk : s.keyDown (s.getV x) <;> simp [pcAfter, hk]
  all_goals exact State.advance_pc_toNat hpc

/-! ## The step of a core that is not halted -/

/-- The step of a core that is not halted is what the instruction answers, or, where that took a fault, the state before
with the fault latched. -/
theorem step_cases_of_running (hs : s.fault = none) (h : step s = .next t) :
    (t.fault = none ∧ exec s.fetchInstr s.atFetch = .next t) ∨
      ∃ u r, exec s.fetchInstr s.atFetch = .next u ∧ u.fault = some r ∧ t = { s with fault := some r } := by
  obtain ⟨r, hr, -⟩ | ⟨-, u, hu, rfl⟩ := step_cases h
  · rw [hs] at hr
    cases hr
  · obtain ⟨hnone, hsettle⟩ | ⟨r, hr, hsettle⟩ := s.settle_cases u
    · rw [hsettle]
      exact .inl ⟨hnone, hu⟩
    · exact .inr ⟨u, r, hu, hr, hsettle⟩

/-- Settles O42: the instruction runs at the guarded PC, and settling a fault puts back the PC from before. -/
theorem pcAfterEveryStep : Obligations.PcAfterEveryStep := by
  intro s t hs h
  obtain ⟨ht, hexec⟩ | ⟨u, r, -, -, rfl⟩ := step_cases_of_running hs h
  · exact ⟨exec_pc (fetchAddr_le s.pc) hexec, fun hn => absurd ht hn⟩
  · exact ⟨nofun, fun _ => rfl⟩

end Sys2Proof.Machine
end

section
/-! What a fault records, when the generator draws, and which instructions read the key vector and the timers
(spec/60_exceptions.md sections 1, 2, 5 and 6; spec/10_state.md section 8). -/

namespace Sys2Proof.Machine

variable {s t : State}

/-! ## The opcode fetched and the instruction -/

/-- The opcode fetched is the word of the instruction executed. -/
theorem State.encode_fetchInstr (s : State) : encode s.fetchInstr = s.opcode := (decode_faithful s.opcode).2

/-- The group of an opcode under the mask of the group. -/
theorem mask_group_eq {w : Word} {g : Nibble} : w &&& 0xF000#16 = encodeA g 0 ↔ fieldG w = g := by
  rw [← beq_iff_eq, row_A, beq_iff_eq]

/-! ## Faults -/

/-- Settles O41: of the three faults an instruction can take, each is latched with the condition that raised it, at the
guarded PC and with the word of the instruction, which is the opcode fetched. -/
theorem faultsArePrecise : Obligations.FaultsArePrecise := by
  intro s t hs h ht
  obtain ⟨hnone, -⟩ | ⟨u, r, hexec, hr, rfl⟩ := step_cases_of_running hs h
  · exact absurd hnone ht
  have hword := s.encode_fetchInstr
  obtain hkeep | ⟨hi, hsp, rfl⟩ | ⟨nnn, hi, hsp, rfl⟩ | ⟨hout, rfl⟩ := exec_fault_cases hexec
  · have hnone : u.fault = none := hkeep.trans hs
    cases hnone.symm.trans hr
  · cases hr
    refine ⟨_, rfl, rfl, hword, .inl ⟨rfl, ?_, hsp, rfl⟩⟩
    rw [← hword, hi]; rfl
  · cases hr
    have hgroup : s.opcode &&& 0xF000#16 = 0x2000#16 := by
      rw [← hword, hi]
      exact mask_group_eq.mpr (fieldG_encodeA 2 nnn)
    exact ⟨_, rfl, rfl, hword, .inr (.inl ⟨rfl, hgroup, hsp, hsp⟩)⟩
  · cases hr
    obtain ⟨hone, hlast⟩ : 1 ≤ dataBytes s.fetchInstr ∧ 4096 < s.i.toNat + dataBytes s.fetchInstr :=
      (s.atFetch.outOfBounds_iff _).mp hout
    exact ⟨_, rfl, rfl, hword, .inr (.inr ⟨rfl, hone, by omega, rfl⟩)⟩

/-! ## The generator -/

/-- No instruction but RND writes the generator. -/
theorem exec_rng {i : Instr} (hi : ∀ x nn, i ≠ .rnd x nn) (h : exec i s = .next t) : t.rng = s.rng := by
  refine (exec_frame_mem h).rng ?_
  cases i
  case rnd x nn => exact absurd rfl (hi x nn)
  all_goals exact id

/-- The words of group C, and no others, decode to RND. -/
theorem decode_eq_rnd_iff {w : Word} : (∃ x nn, decode w = .rnd x nn) ↔ w &&& 0xF000#16 = 0xC000#16 := by
  constructor
  · rintro ⟨x, nn, hi⟩
    rw [← (decode_faithful w).2, hi]
    exact mask_group_eq.mpr (fieldG_encodeXI 12 x nn)
  · intro hmask
    have hg : fieldG w = 12 := mask_group_eq.mp hmask
    exact ⟨fieldX w, fieldNN w, by simp [decode, hg]⟩

/-- Settles O44: RND makes one draw and takes no fault, every other instruction leaves the generator, and so does the
settling of a fault. -/
theorem oneDrawPerRandomInstruction : Obligations.OneDrawPerRandomInstruction := by
  intro s t h
  obtain ⟨r, hr, rfl⟩ | ⟨hs, -⟩ := step_cases h
  · simp [hr]
  by_cases hrnd : ∃ x nn, s.fetchInstr = .rnd x nn
  case pos =>
    have hmask : s.opcode &&& 0xF000#16 = 0xC000#16 := decode_eq_rnd_iff.mp hrnd
    obtain ⟨x, nn, hi⟩ := hrnd
    obtain ⟨-, hexec⟩ | ⟨u, r, hexec, hr, rfl⟩ := step_cases_of_running hs h
    · rw [hi] at hexec
      obtain rfl := Host.Outcome.next.inj ((exec_rnd s.atFetch x nn).symm.trans hexec)
      exact ⟨rfl, by rw [if_pos ⟨hs, hmask⟩]; rfl⟩
    · rw [hi] at hexec
      obtain rfl := Host.Outcome.next.inj ((exec_rnd s.atFetch x nn).symm.trans hexec)
      cases hs.symm.trans hr
  case neg =>
    have hmask : ¬ (s.opcode &&& 0xF000#16 = 0xC000#16) := fun hm => hrnd (decode_eq_rnd_iff.mpr hm)
    have hrng : t.rng = s.rng := by
      obtain ⟨-, hexec⟩ | ⟨u, r, -, -, rfl⟩ := step_cases_of_running hs h
      · exact exec_rng (s := s.atFetch) (fun x nn hi => hrnd ⟨x, nn, hi⟩) hexec
      · rfl
    rw [hrng, if_neg fun hm => hmask hm.2]
    exact ⟨rfl, rfl⟩

/-! ## The key vector -/

theorem exec_skp (s : State) (x : Nibble) : exec (.skp x) s = .next (s.skipIf (s.keyDown (s.getV x))) := rfl

theorem exec_sknp (s : State) (x : Nibble) : exec (.sknp x) s = .next (s.skipIf (!s.keyDown (s.getV x))) := rfl

/-- A key is down where its number is one of 0..15 and its bit of the vector is 1. -/
theorem State.keyDown_iff (s : State) (k : Byte) :
    s.keyDown k = true ↔ k.toNat ≤ 15 ∧ s.keys.getLsbD k.toNat = true := by
  simp [State.keyDown, Config.numKeys, Nat.lt_succ_iff]

/-- Settles O32: each is one skip, on the key being down or not. -/
theorem keySkips : Obligations.KeySkips := by
  intro x s
  have hskp : 0xE09E#16 ||| x.setWidth 16 <<< 8 = encodeXI 14 x 0x9E := encodeXF_or 14 x 0x9E
  have hsknp : 0xE0A1#16 ||| x.setWidth 16 <<< 8 = encodeXI 14 x 0xA1 := encodeXF_or 14 x 0xA1
  refine ⟨by simp [hskp, decode, decodeE], by simp [hsknp, decode, decodeE],
    ⟨_, exec_skp s x, (Frame.refl s {}).skipIf _, ?_⟩, ⟨_, exec_sknp s x, (Frame.refl s {}).skipIf _, ?_⟩⟩
  · simp only [State.skipIf_pc, State.keyDown_iff]
  · simp only [State.skipIf_pc, ← State.keyDown_iff, Bool.not_eq_true', ← Bool.not_eq_true, ite_not]

theorem State.withKeys_skipIf (s : State) (k : BitVec 16) (c : Bool) :
    (s.withKeys k).skipIf c = (s.skipIf c).withKeys k := by
  cases c <;> rfl

theorem State.withKeys_loadRegs (s : State) (k : BitVec 16) (base n : Nat) :
    (s.withKeys k).loadRegs base n = (s.loadRegs base n).withKeys k := by
  induction n with
  | zero => rfl
  | succ n ih => rw [State.loadRegs, ih]; rfl

/-- The bounds check reads no key, so a data access commutes with a change of the key vector where its body does. -/
theorem withData_withKeys {i : Instr} {body : State → State} {k : BitVec 16}
    (hbody : body (s.withKeys k) = (body s).withKeys k) (h : withData i body s = .next t) :
    withData i body (s.withKeys k) = .next (t.withKeys k) := by
  obtain ⟨hout, rfl⟩ | ⟨hin, rfl⟩ := withData_cases s h
  · exact withData_outOfBounds (s.withKeys k) hout
  · rw [← hbody]
    exact withData_inBounds (s.withKeys k) hin

/-- Every instruction but the key skips does the same under every key vector, and passes the vector on. -/
theorem exec_withKeys {i : Instr} (hi : ∀ x, i ≠ .skp x ∧ i ≠ .sknp x) (h : exec i s = .next t) (k : BitVec 16) :
    exec i (s.withKeys k) = .next (t.withKeys k) := by
  cases i
  case skp x => exact absurd rfl (hi x).1
  case sknp x => exact absurd rfl (hi x).2
  case ret =>
    obtain ⟨hsp, rfl⟩ | ⟨hlt, hsp, rfl⟩ := exec_ret_cases h
    · exact exec_ret_of_empty (s.withKeys k) hsp
    · exact exec_ret_of_pos (s.withKeys k) hsp hlt
  case call nnn =>
    obtain ⟨hsp, rfl⟩ | ⟨hsp, rfl⟩ := exec_call_cases h
    · exact exec_call_of_full (s.withKeys k) nnn hsp
    · exact exec_call_of_lt (s.withKeys k) nnn hsp
  case drw | ldB | stRegs =>
    simp only [exec, execDrw, execLdB, execStRegs] at h ⊢
    exact withData_withKeys rfl h
  case ldRegs x =>
    rw [exec, execLdRegs] at h ⊢
    exact withData_withKeys (congrArg State.advance (s.withKeys_loadRegs k _ _)) h
  case seImm | sneImm | seReg | sneReg =>
    obtain rfl := Host.Outcome.next.inj h
    exact congrArg Host.Outcome.next (s.withKeys_skipIf k _)
  all_goals
    obtain rfl := Host.Outcome.next.inj h
    rfl

/-- No step writes the key vector. -/
theorem step_keys (h : step s = .next t) : t.keys = s.keys := by
  obtain ⟨r, -, rfl⟩ | ⟨hs, -⟩ := step_cases h
  · rfl
  · obtain ⟨-, hexec⟩ | ⟨u, r, -, -, rfl⟩ := step_cases_of_running hs h
    · exact (exec_frame_mem hexec).keys
    · rfl

/-- Settling a step commutes with a change of the key vector. -/
theorem State.withKeys_settle (s u : State) (k : BitVec 16) :
    (s.withKeys k).settle (u.withKeys k) = (s.settle u).withKeys k := by
  rw [State.settle_eq_ite, State.settle_eq_ite, apply_ite fun v : State => v.withKeys k]; rfl

/-- Settles O33: no instruction writes the key vector, and those but the key skips commute with a change of it. -/
theorem keysMatterToKeySkipsOnly : Obligations.KeysMatterToKeySkipsOnly := by
  refine fun s t k h => ⟨step_keys h, fun hi => ?_⟩
  obtain ⟨r, hr, rfl⟩ | ⟨hs, u, hexec, rfl⟩ := step_cases h
  · exact step_of_halted (s := t.withKeys k) hr
  · rw [← State.withKeys_settle]
    exact step_of_exec (s := s.withKeys k) hs (exec_withKeys hi hexec k)

/-! ## The timers -/

/-- Under other timers an instruction answers the same state but for the timers, and the sound timer it was given. -/
theorem exec_withTimers_exists {i : Instr} (h : exec i s = .next t) (d e : Byte) :
    ∃ u, exec i (s.withTimers d e) = .next u ∧ u.st = e ∧ u.withTimers t.dt t.st = t := by
  by_cases hi : ∃ x, i = .ldDT x
  case pos =>
    obtain ⟨x, rfl⟩ := hi
    obtain rfl := Host.Outcome.next.inj ((exec_ldDT s x).symm.trans h)
    exact ⟨_, exec_ldDT _ x, rfl, rfl⟩
  case neg => exact ⟨_, exec_withTimers (not_exists.mp hi) h d e, rfl, rfl⟩

/-- Settles O35: the instruction answers the same but for the timers, and settling a fault does not touch them. -/
theorem timersAreInvisible : Obligations.TimersAreInvisible := by
  intro s t d e h
  obtain ⟨r, hr, rfl⟩ | ⟨hs, u, hexec, rfl⟩ := step_cases h
  · exact ⟨_, step_of_halted (s := t.withTimers d e) hr, rfl, rfl⟩
  obtain ⟨v, hv, hst, hback⟩ := exec_withTimers_exists hexec d e
  have hfault := congrArg State.fault hback
  change v.fault = u.fault at hfault
  refine ⟨_, step_of_exec (s := s.withTimers d e) hs hv, ?_⟩
  by_cases hu : u.fault = none
  · rw [State.settle_of_no_fault _ (hfault.trans hu), State.settle_of_no_fault _ hu]
    exact ⟨hst, hback⟩
  · rw [State.settle_of_fault _ (hfault ▸ hu), State.settle_of_fault _ hu, hfault]
    exact ⟨rfl, rfl⟩

end Sys2Proof.Machine
end

section
/-! The invariant: it holds after Reset, and every step and every host operation keeps it (spec/10_state.md section 3,
spec/40_flow.md section 2, spec/60_exceptions.md sections 1 and 6, spec/70_reset_and_hazards.md section 2). -/

namespace Sys2Proof.Machine

variable {s t : State}

/-! ## After Reset -/

theorem State.resetWith_inv (seed : Nat) : (State.resetWith seed).Inv where
  mem := Memory.reset_wf
  pc := (by decide : (512 : Word).toNat ≤ 4350)
  stack := fun _ hk => absurd hk (Nat.not_lt_zero _)
  fault := nofun

/-- Settles O46: memory is empty, PC is 512, the stack is empty and no fault is latched. -/
theorem resetSatisfiesInvariant : Obligations.ResetSatisfiesInvariant := State.resetWith_inv

/-! ## The stack and PC -/

/-- No instruction but RET and CALL writes the stack. -/
theorem exec_stack {i : Instr} (hret : i ≠ .ret) (hcall : ∀ nnn, i ≠ .call nnn) (h : exec i s = .next t) :
    t.sp = s.sp ∧ t.stack = s.stack := by
  refine (exec_frame_mem h).stack ?_
  cases i
  case ret => exact absurd rfl hret
  case call nnn => exact absurd rfl (hcall nnn)
  all_goals exact id

/-- RET takes an entry away. -/
theorem exec_ret_stackOk (hst : s.StackOk) (h : exec .ret s = .next t) : t.StackOk := by
  obtain ⟨-, rfl⟩ | ⟨_, -, rfl⟩ := exec_ret_cases h
  · exact hst
  · exact fun k hk => hst k (Nat.lt_of_lt_of_le hk (Nat.sub_le _ _))

/-- CALL adds an entry, the address after it, which is in 2..4096 since it was fetched from at most 4094. -/
theorem exec_call_stackOk {nnn : Addr12} (hpc : s.pc.toNat ≤ 4094) (hst : s.StackOk)
    (h : exec (.call nnn) s = .next t) : t.StackOk := by
  obtain ⟨-, rfl⟩ | ⟨hsp, rfl⟩ := exec_call_cases h
  · exact hst
  · intro k hk
    have hnew : (s.pc + 2).toNat = s.pc.toNat + 2 := pc_add_toNat hpc (by decide)
    simp only [Fin.getElem_fin, State.jump_stack, Vector.getElem_set]
    split
    case isTrue => omega
    case isFalse hne => exact hst k (Nat.lt_of_le_of_ne (Nat.le_of_lt_succ hk) (Ne.symm hne))

/-- Every instruction at a fetch address keeps the stack entries in use in 2..4096. -/
theorem exec_stackOk {i : Instr} (hpc : s.pc.toNat ≤ 4094) (hst : s.StackOk) (h : exec i s = .next t) :
    t.StackOk := by
  by_cases hret : i = .ret
  · subst hret
    exact exec_ret_stackOk hst h
  by_cases hcall : ∃ nnn, i = .call nnn
  · obtain ⟨nnn, rfl⟩ := hcall
    exact exec_call_stackOk hpc hst h
  obtain ⟨hsp, hstack⟩ := exec_stack hret (not_exists.mp hcall) h
  rw [State.StackOk, hsp, hstack]
  exact hst

/-- The table of PC values stays below 4351: the largest is the sum of JP V0; RET's value is the stack's. -/
theorem pcAfter_le {i : Instr} (hret : i ≠ .ret) (hpc : s.pc.toNat ≤ 4094) : pcAfter s i ≤ 4350 := by
  cases i
  case ret => exact absurd rfl hret
  case jp nnn | call nnn =>
    have := nnn.isLt
    simp only [pcAfter]
    omega
  case jpV0 nnn =>
    have := nnn.isLt
    have := (s.getV 0).isLt
    simp only [pcAfter]
    omega
  case seImm | sneImm | seReg | sneReg | skp | sknp =>
    simp only [pcAfter]
    split <;> omega
  all_goals
    simp only [pcAfter]
    omega

/-- An instruction at a fetch address that takes no fault leaves PC at most 4350. -/
theorem exec_pc_le {i : Instr} (hpc : s.pc.toNat ≤ 4094) (hst : s.StackOk) (h : exec i s = .next t)
    (ht : t.fault = none) : t.pc.toNat ≤ 4350 := by
  by_cases hret : i = .ret
  · subst hret
    obtain ⟨-, rfl⟩ | ⟨hlt, hsp, rfl⟩ := exec_ret_cases h
    · cases ht
    · have hnewest := hst.newest (Nat.pos_of_ne_zero hsp) hlt
      exact hnewest.2.trans (by decide)
  · rw [exec_pc hpc h ht]
    exact pcAfter_le hret hpc

/-! ## The step -/

/-- The record a step latches is a true one: its address is the fetch address, and its condition still stands. -/
theorem step_faultOk (hs : s.fault = none) (h : step s = .next t) (ht : t.fault ≠ none) : t.FaultOk := by
  obtain ⟨r, rfl, haddr, hop, hcase⟩ := faultsArePrecise s t hs h ht
  intro q hq
  obtain rfl := Option.some.inj hq
  refine ⟨haddr ▸ fetchAddr_le s.pc, ?_⟩
  obtain ⟨hkind, hret, hsp, hinfo⟩ | ⟨hkind, hcall, hsp, hinfo⟩ | ⟨hkind, hone, hlast, hinfo⟩ := hcase
  · rw [hkind]
    exact ⟨hop.trans hret, hsp, hinfo⟩
  · rw [hkind]
    exact ⟨hop ▸ mask_group_eq.mp hcall, hsp, hinfo⟩
  · rw [hkind, hop]
    have hbound : 4096 < s.i.toNat + dataBytes s.fetchInstr := by omega
    exact ⟨(s.outOfBounds_iff _).mpr ⟨hone, hbound⟩, hinfo⟩

/-- A step keeps the invariant: a halted core keeps its state, an instruction without a fault keeps each part, and a
fault keeps all but the latch. -/
theorem step_inv (hinv : s.Inv) (h : step s = .next t) : t.Inv := by
  obtain ⟨r, -, rfl⟩ | ⟨hs, -⟩ := step_cases h
  · exact hinv
  obtain ⟨ht, hexec⟩ | ⟨u, r, -, -, rfl⟩ := step_cases_of_running hs h
  · have hpc : s.atFetch.pc.toNat ≤ 4094 := fetchAddr_le s.pc
    have hst : s.atFetch.StackOk := hinv.stack
    exact
      { mem := exec_mem_wf (s := s.atFetch) hinv.mem hexec
        pc := exec_pc_le hpc hst hexec ht
        stack := exec_stackOk hpc hst hexec
        fault := fun r hr => by cases ht.symm.trans hr }
  · exact
      { mem := hinv.mem
        pc := hinv.pc
        stack := hinv.stack
        fault := step_faultOk hs h nofun }

/-- Settles O47, by the cases of a step: halted, without a fault, with one. -/
theorem stepKeepsInvariant : Obligations.StepKeepsInvariant := fun _ _ => step_inv

/-! ## The host's operations -/

/-- A step through the port is the step under the keys given. -/
theorem step_of_hostDo_step {k : BitVec 16} {reply : HostReply} (h : hostDo (.step k) s = .next (t, reply)) :
    step (s.withKeys k) = .next t := by
  obtain ⟨u, hu⟩ := step_next (s.withKeys k)
  cases Host.Outcome.next.inj ((hostDo_step s hu).symm.trans h)
  exact hu

/-- A `Load` leaves the state as it is or stores its bytes inside memory. -/
theorem hostDo_load_cases {bytes : List Byte} {origin : Nat} {reply : HostReply}
    (h : hostDo (.load bytes origin) s = .next (t, reply)) :
    t = s ∨ (bytes.length + origin ≤ 4096 ∧ t = s.storeBytes origin (fun k => bytes.getD k 0) bytes.length) := by
  by_cases hfits : bytes.length + origin ≤ 4096
  · cases Host.Outcome.next.inj ((hostDo_load_fits s hfits).symm.trans h)
    exact .inr ⟨hfits, rfl⟩
  · cases Host.Outcome.next.inj ((hostDo_load_too_large s (Nat.lt_of_not_le hfits)).symm.trans h)
    exact .inl rfl

/-- Every host operation answers a next state. -/
theorem hostDo_next (op : HostOp) (s : State) : ∃ t reply, hostDo op s = .next (t, reply) := by
  cases op
  case load bytes origin =>
    by_cases hfits : bytes.length + origin ≤ 4096
    · exact ⟨_, _, hostDo_load_fits s hfits⟩
    · exact ⟨_, _, hostDo_load_too_large s (Nat.lt_of_not_le hfits)⟩
  case step k =>
    obtain ⟨t, ht⟩ := step_next (s.withKeys k)
    exact ⟨_, _, hostDo_step s ht⟩
  all_goals exact ⟨_, _, rfl⟩

/-- The invariant does not speak of the key vector. -/
theorem State.Inv.withKeys (hinv : s.Inv) (k : BitVec 16) : (s.withKeys k).Inv :=
  ⟨hinv.mem, hinv.pc, hinv.stack, hinv.fault⟩

/-- The invariant does not speak of the timers. -/
theorem State.Inv.writeTimer (hinv : s.Inv) (timer : Timer) (b : Byte) : (s.writeTimer timer b).Inv := by
  cases timer <;> exact ⟨hinv.mem, hinv.pc, hinv.stack, hinv.fault⟩

/-- A store inside memory keeps the invariant. -/
theorem State.Inv.storeBytes (hinv : s.Inv) {base n : Nat} (hin : base + n ≤ 4096) (f : Nat → Byte) :
    (s.storeBytes base f n).Inv :=
  ⟨Memory.storeBytes_wf hinv.mem hin f, hinv.pc, hinv.stack, hinv.fault⟩

/-- Every host operation keeps the invariant. -/
theorem hostDo_inv {op : HostOp} {reply : HostReply} (hinv : s.Inv) (h : hostDo op s = .next (t, reply)) : t.Inv := by
  cases op
  case step k => exact step_inv (hinv.withKeys k) (step_of_hostDo_step h)
  case load bytes origin =>
    obtain rfl | ⟨hfits, rfl⟩ := hostDo_load_cases h
    · exact hinv
    · exact hinv.storeBytes (Nat.add_comm .. ▸ hfits) _
  all_goals cases Host.Outcome.next.inj h
  case reset seed => exact State.resetWith_inv seed
  case writeTimer timer b => exact hinv.writeTimer timer b
  case readFB | readTimer => exact hinv

/-- A run whose first operation is `op` goes on from the state that operation answers. -/
theorem hostRun_cons_cases {op : HostOp} {ops : List HostOp} (h : hostRun (op :: ops) s = .next t) :
    ∃ u reply, hostDo op s = .next (u, reply) ∧ hostRun ops u = .next t := by
  obtain ⟨u, reply, hop⟩ := hostDo_next op s
  exact ⟨u, reply, hop, (hostRun_cons s hop ops).symm.trans h⟩

/-- Every run keeps the invariant, operation by operation. -/
theorem hostRun_inv {ops : List HostOp} (hinv : s.Inv) (h : hostRun ops s = .next t) : t.Inv := by
  induction ops generalizing s with
  | nil =>
    cases Host.Outcome.next.inj h
    exact hinv
  | cons op ops ih =>
    obtain ⟨u, reply, hop, hrest⟩ := hostRun_cons_cases h
    exact ih (hostDo_inv hinv hop) hrest

/-- Settles O48: each operation keeps the invariant, and a run from Reset starts in it. -/
theorem everyHostRunKeepsInvariant : Obligations.EveryHostRunKeepsInvariant :=
  ⟨fun _ _ _ _ => hostDo_inv, fun seed _ _ => hostRun_inv (State.resetWith_inv seed)⟩

end Sys2Proof.Machine
end

section
/-! The host's operations: Reset, the ports, the halted core, the spin and the end of a run
(spec/10_state.md section 9, spec/60_exceptions.md sections 2, 5 and 6, spec/70_reset_and_hazards.md sections 1, 3). -/

namespace Sys2Proof.Machine

/-! ## Reset and the ports -/

/-- Settles O49: Reset answers its own state, whatever the state before. -/
theorem resetState : Obligations.ResetState := fun _ _ =>
  ⟨_, rfl, fun _ => Vector.getElem_replicate _, rfl, rfl, rfl, rfl, fun _ => rfl, rfl, FrameBuffer.pixel_off, rfl, rfl,
    rfl⟩

/-- Settles O52: a timer write replaces one field, and a read answers a field or a pixel. -/
theorem hostPorts : Obligations.HostPorts := fun s _ _ _ =>
  ⟨⟨_, rfl, rfl, rfl, rfl, (Frame.refl s _).setDT trivial _⟩, ⟨_, rfl, rfl, rfl, rfl⟩, rfl⟩

/-! ## The halted core -/

/-- Settles O40: a halted core's step answers the same state, a `Load` writes memory alone, and the timer port a
timer. -/
theorem haltedUntilReset : Obligations.HaltedUntilReset := by
  intro s r hr
  refine ⟨step_of_halted hr, fun op t reply hreset h => ?_⟩
  cases op
  case reset seed => exact absurd rfl (hreset seed)
  case load bytes origin =>
    obtain rfl | ⟨-, rfl⟩ := hostDo_load_cases h <;> exact ⟨hr, rfl, rfl, rfl, rfl, rfl, rfl, rfl⟩
  case step k =>
    have hstep : step (s.withKeys k) = .next (s.withKeys k) := step_of_halted hr
    obtain rfl := Host.Outcome.next.inj (hstep.symm.trans (step_of_hostDo_step h))
    exact ⟨hr, rfl, rfl, rfl, rfl, rfl, rfl, rfl⟩
  all_goals cases Host.Outcome.next.inj h
  case readFB | readTimer => exact ⟨hr, rfl, rfl, rfl, rfl, rfl, rfl, rfl⟩
  case writeTimer timer b => cases timer <;> exact ⟨hr, rfl, rfl, rfl, rfl, rfl, rfl, rfl⟩

/-! ## The spin -/

variable {s t : State}

/-- A PC of at most 4094 is its own low twelve bits, zero-extended. -/
theorem addrOperand_setWidth {pc : Word} (h : pc.toNat ≤ 4094) : addrOperand (pc.setWidth 12) = pc := by
  apply BitVec.eq_of_toNat_eq
  rw [addrOperand_toNat, BitVec.toNat_setWidth, Nat.mod_eq_of_lt (by omega)]

/-- A word is the jump to an address exactly where it decodes to that jump. -/
theorem decode_eq_jp_iff {w : Word} {nnn : Addr12} : decode w = .jp nnn ↔ w = 0x1000#16 ||| addrOperand nnn := by
  have hword : 0x1000#16 ||| addrOperand nnn = encode (.jp nnn) := encodeA_or 1 nnn
  rw [hword]
  constructor
  · intro h
    rw [← h, (decode_faithful w).2]
  · rintro rfl
    exact decode_encode rfl

/-- The spin in terms of memory: the word at PC is the jump to PC. -/
theorem State.atSpin_iff_word (s : State) : s.atSpin = true ↔
    s.fault = none ∧ s.pc.toNat ≤ 4094 ∧ s.mem.fetch16 s.pc.toNat = 0x1000#16 ||| s.pc := by
  rw [s.atSpin_iff]
  refine and_congr_right fun _ => and_congr_right fun hpc => ?_
  rw [State.fetchInstr, decode_eq_jp_iff, addrOperand_setWidth hpc, s.opcode_of_le hpc]

/-- A step at a spin answers the same state. -/
theorem step_atSpin (h : s.atSpin = true) : step s = .next s := by
  obtain ⟨hs, hpc, hi⟩ := s.atSpin_iff.mp h
  have hself : s.jump (addrOperand (s.pc.setWidth 12)) = s := by rw [addrOperand_setWidth hpc]; rfl
  have hexec : exec s.fetchInstr s.atFetch = .next s := by rw [hi, s.atFetch_of_le hpc, exec_jp, hself]
  rw [step_of_exec hs hexec, s.settle_of_no_fault hs]

/-- Steps at a spin leave the last key vector given and change nothing else. -/
theorem hostRun_steps_atSpin (h : s.atSpin = true) (keys : List (BitVec 16)) :
    hostRun (keys.map .step) s = .next (s.withKeys (keys.getLastD s.keys)) := by
  induction keys generalizing s with
  | nil => rfl
  | cons k keys ih =>
    have hstep : step (s.withKeys k) = .next (s.withKeys k) := step_atSpin h
    rw [List.map_cons, hostRun_cons s (hostDo_step s hstep), ih (s := s.withKeys k) h, List.getLastD_cons]
    rfl

/-- A core that fetches two zeros at PC, the no-operation 0000, is not at a spin. -/
theorem State.atSpin_of_zeros (hpc : s.pc.toNat ≤ 4094) (hhigh : s.mem.read s.pc.toNat = 0)
    (hlow : s.mem.read (s.pc.toNat + 1) = 0) : s.atSpin = false := by
  have hinstr : s.fetchInstr = .nop 0#16 := by
    rw [State.fetchInstr, s.opcode_of_le hpc, Memory.fetch16, hhigh, hlow]; rfl
  simp [State.atSpin, hinstr]

/-- Settles O43: the jump to itself writes back the PC it found; a timer is no part of the spin; after Reset and after
the load of zeros the core fetches 0000. -/
theorem spinIsFixedPoint : Obligations.SpinIsFixedPoint := by
  refine ⟨State.atSpin_iff_word, fun s h => ⟨step_atSpin h, hostRun_steps_atSpin h, fun timer b => ?_, fun seed => ?_,
    fun hmem => ?_⟩⟩
  · exact ⟨_, rfl, by simp, (s.writeTimer_atSpin timer b).trans h⟩
  · exact ⟨_, rfl, State.atSpin_of_zeros (by decide : (512 : Word).toNat ≤ 4094) rfl rfl⟩
  · obtain ⟨-, hpc, -⟩ := s.atSpin_iff.mp h
    have hfits : [0x00#8, 0x00#8].length + s.pc.toNat ≤ 4096 := by simp only [List.length_cons, List.length_nil]; omega
    have hread := read_after_load s hmem [0x00#8, 0x00#8] s.pc.toNat
    exact ⟨_, hostDo_load_fits s hfits, State.atSpin_of_zeros hpc (hread 0 (by decide)) (hread 1 (by decide))⟩

/-! ## The end of a run -/

/-- The first `k` operations of a list lead to a state at a spin, and no fewer do. -/
def FirstSpin (ops : List HostOp) (s t : State) (k : Nat) : Prop :=
  k ≤ ops.length ∧ hostRun (ops.take k) s = .next t ∧ t.atSpin = true ∧
    ∀ j u, j < k → hostRun (ops.take j) s = .next u → u.atSpin = false

/-- With no operation, the state itself is at a spin. -/
theorem firstSpin_zero {ops : List HostOp} : FirstSpin ops s t 0 ↔ s = t ∧ s.atSpin = true := by
  constructor
  · rintro ⟨-, hrun, hspin, -⟩
    obtain rfl := Host.Outcome.next.inj hrun
    exact ⟨rfl, hspin⟩
  · rintro ⟨rfl, hspin⟩
    exact ⟨Nat.zero_le _, rfl, hspin, nofun⟩

/-- With one operation more, the state is not at a spin and the rest of the list leads to the first one. -/
theorem firstSpin_succ {op : HostOp} {ops : List HostOp} {u : State} {reply : HostReply}
    (hop : hostDo op s = .next (u, reply)) {k : Nat} :
    FirstSpin (op :: ops) s t (k + 1) ↔ s.atSpin = false ∧ FirstSpin ops u t k := by
  have htail (j : Nat) : hostRun ((op :: ops).take (j + 1)) s = hostRun (ops.take j) u := hostRun_cons s hop _
  constructor
  · rintro ⟨hk, hrun, hspin, hbefore⟩
    exact ⟨hbefore 0 s (Nat.succ_pos k) rfl, Nat.le_of_succ_le_succ hk, (htail k).symm.trans hrun, hspin,
      fun j v hj hv => hbefore (j + 1) v (Nat.succ_lt_succ hj) ((htail j).trans hv)⟩
  · rintro ⟨hs, hk, hrun, hspin, hbefore⟩
    refine ⟨Nat.succ_le_succ hk, (htail k).trans hrun, hspin, fun j v hj hv => ?_⟩
    cases j with
    | zero =>
      obtain rfl := Host.Outcome.next.inj hv
      exact hs
    | succ j => exact hbefore j v (Nat.lt_of_succ_lt_succ hj) ((htail j).symm.trans hv)

/-- A state at a spin is the first one of every run from it. -/
theorem exists_firstSpin_of_atSpin (hs : s.atSpin = true) (ops : List HostOp) :
    (∃ k, FirstSpin ops s t k) ↔ s = t := by
  constructor
  · rintro ⟨k, hk⟩
    cases k with
    | zero => exact (firstSpin_zero.mp hk).1
    | succ k =>
      obtain ⟨-, -, -, hbefore⟩ := hk
      cases hs.symm.trans (hbefore 0 s (Nat.succ_pos k) rfl)
  · rintro rfl
    exact ⟨0, firstSpin_zero.mpr ⟨rfl, hs⟩⟩

/-- From a state not at a spin, the first spin of a run is that of the run after its first operation. -/
theorem exists_firstSpin_cons (hs : s.atSpin = false) {op : HostOp} {u : State} {reply : HostReply}
    (hop : hostDo op s = .next (u, reply)) (ops : List HostOp) :
    (∃ k, FirstSpin (op :: ops) s t k) ↔ ∃ k, FirstSpin ops u t k := by
  constructor
  · rintro ⟨k, hk⟩
    cases k with
    | zero => cases hs.symm.trans (firstSpin_zero.mp hk).2
    | succ k => exact ⟨k, ((firstSpin_succ hop).mp hk).2⟩
  · rintro ⟨k, hk⟩
    exact ⟨k + 1, (firstSpin_succ hop).mpr ⟨hs, hk⟩⟩

/-- `runEnd` answers the state at the first spin of the run. -/
theorem runEnd_eq_some_iff (ops : List HostOp) (s t : State) : runEnd ops s = some t ↔ ∃ k, FirstSpin ops s t k := by
  induction ops generalizing s with
  | nil =>
    by_cases hs : s.atSpin = true
    · rw [runEnd_atSpin s hs, Option.some_inj, exists_firstSpin_of_atSpin hs]
    · refine ⟨fun h => by simp [runEnd, hs] at h, ?_⟩
      rintro ⟨k, hk, hrun, hspin, -⟩
      rw [List.take_nil] at hrun
      obtain rfl := Host.Outcome.next.inj hrun
      exact absurd hspin hs
  | cons op ops ih =>
    by_cases hs : s.atSpin = true
    · rw [runEnd_atSpin s hs, Option.some_inj, exists_firstSpin_of_atSpin hs]
    · have hs : s.atSpin = false := Bool.eq_false_iff.mpr hs
      obtain ⟨u, reply, hop⟩ := hostDo_next op s
      rw [runEnd_cons s hs hop, ih u, exists_firstSpin_cons hs hop]

/-- Settles O60, by induction on the operations: at a spin the run ends, else it goes on after the first operation. -/
theorem runEndIsFirstSpin : Obligations.RunEndIsFirstSpin := runEnd_eq_some_iff

end Sys2Proof.Machine
end
